-- ==== Sys2Proof/Word.lean ====
section
/-! DEFINITION. The machine's words (spec R6, R16): bytes, and the 9-bit values that `pc`, `err_pc` and `err_info` hold. -/

namespace Sys2Proof

/-- A byte: a register, a memory cell, an instruction byte (R6 XLEN, R11, R23). -/
abbrev Byte := BitVec 8

/-- A 9-bit value: the program counter (R6 PCLEN, R16) and the two wide registers of the error record (R25). -/
abbrev Word9 := BitVec 9

end Sys2Proof
end

