-- ==== Sys2Proof/Config.lean ====
section
/-! DEFINITION. What is fixed for one machine: the sizes of R6 and the record of the 13 opcode byte parameters (R6, R29, R53).
The record's default value, the opcode table itself, is `OpcodeMap.default` in Sys2Proof/Decode.lean. -/

namespace Sys2Proof

/-- R6 MEMSIZE: the number of memory cells. -/
abbrev memSize : Nat := 256

/-- R6 SP_INDEX: the register used as stack pointer. -/
abbrev spIndex : Fin 8 := 7

/-- R6 SP_RESET: the reset value of register 7 and the "empty stack" value that PopCheck compares with (R13, R101). -/
def spReset : Byte := 0xF4

/-- What a memory cell holds after reset (R28), and so what an unlisted address reads as (log 9). -/
def emptyByte : Byte := 0x00

/-- The 13 named parameters `OPC_<MNEMONIC>` (R6): any pairwise distinct bytes. -/
structure OpcodeMap where
  halt           : Byte
  loadImmediate  : Byte
  push           : Byte
  pop            : Byte
  multiply       : Byte
  add            : Byte
  print          : Byte
  call           : Byte
  ret            : Byte
  compare        : Byte
  jump           : Byte
  jumpIfNotEqual : Byte
  jumpIfEqual    : Byte
  deriving DecidableEq, Repr

end Sys2Proof
end

