-- ==== Sys2Proof/Machine/State.lean ====
section
/-! DEFINITION. The machine's state as plain data (R10), its reset value (R28), the four core faults (R171), and the reasons a
step can stop in the host's sense (none of which a step of this model gives: log 6). -/

namespace Sys2Proof.Machine

/-- The run-loop FSM (R24). -/
inductive RunState where
  /-- after reset: the load port may write memory -/
  | idle
  /-- the run loop executes -/
  | running
  /-- terminal, entered by HALT -/
  | halted
  /-- terminal, entered by a fault; the error record is valid -/
  | error
  deriving DecidableEq, Repr

/-- The input ports of R151 as sampled at one step boundary (R150); all low by default. -/
structure PortInput where
  rst    : Bool := false
  ldWe   : Bool := false
  ldAddr : Byte := 0
  ldData : Byte := 0
  start  : Bool := false
  deriving DecidableEq, Repr

/-- Memory as the list of its cells that do not hold `emptyByte`, addresses strictly rising (`Memory.wf` in Machine/Ops.lean). -/
abbrev Memory := List Host.Cell

/-- What the spec calls a fault (R170, R171). Raising one is a NEXT state (R176, log 6). -/
inductive CoreFault where
  /-- R172: the fetched byte has no dispatch entry -/
  | invalidOpcode (op : Byte)
  /-- R173: a memory address outside 0..255, as the 9-bit value that `err_info` records -/
  | outOfBoundsMem (addr : Word9)
  /-- R174: a register-index byte above 7 -/
  | outOfBoundsReg (index : Byte)
  /-- R175: a pop with `x[7] >= 0xF4` -/
  | stackUnderflow (sp : Byte)
  deriving DecidableEq, Repr

/-- The machine. `x`, `pc`, `fl`, `mem`, `st` and the error record are the architectural state of R10; `out` and `outPort` are
outputs (R26, R155; log 7); `inputs` is what the host will present at the coming step boundaries (log 3). -/
structure State where
  /-- the general registers `x[0]`..`x[7]` (R11) -/
  x        : Vector Byte 8
  /-- the program counter (R16) -/
  pc       : Word9
  /-- the flags register `FL = 0b00000LGE` (R20) -/
  fl       : Byte
  /-- the memory array (R23) -/
  mem      : Memory
  /-- the run-loop FSM state (R24) -/
  st       : RunState
  /-- the error record (R25) -/
  errCause : BitVec 3
  errPc    : Word9
  errInfo  : Word9
  /-- the bytes emitted by PRINT since reset, oldest first (R26) -/
  out      : List Byte
  /-- the output port at the last step boundary: `some v` for `out_valid = 1`, `out_data = v` (R155) -/
  outPort  : Option Byte
  /-- the input samples of the coming step boundaries, the next one first; all ports low once it is empty (log 3) -/
  inputs   : List PortInput
  deriving DecidableEq, Repr

/-- Why a step stops with a fault in the HOST's sense: never. Every fault of the spec has a described entry and is a next state
(R176; log 6), and an address outside memory is one of those faults (R32), so this type has no constructor. -/
inductive Fault
  deriving DecidableEq, Repr

/-- Why an instruction is refused. -/
inductive Refusal where
  /-- Raised only by an arm of `exec` whose instruction has no meaning yet (there is none): safe. -/
  | notModelled (mnemonic : String)
  deriving DecidableEq, Repr

/-- R28: the state after reset. `x[7] = 0xF4` is the source's; the other values are the spec's decisions D3, D12, D13, D21 (log 2).
The host presents no input (log 3). -/
def State.reset : State where
  x        := #v[0, 0, 0, 0, 0, 0, 0, spReset]
  pc       := 0
  fl       := 0
  mem      := []
  st       := .idle
  errCause := 0
  errPc    := 0
  errInfo  := 0
  out      := []
  outPort  := none
  inputs   := []

end Sys2Proof.Machine
end

