-- ==== Sys2Proof/Machine/Ops.lean ====
section
/-! DEFINITION. The named operations over registers, memory, stack, pc and output, raising a fault (R176) and the frame of a
handler (`attempt`). A handler is written in `Except CoreFault`, so that a `raise` ends it with nothing written (R7, R177). -/

namespace Sys2Proof.Machine

/-! ### Registers (R11 to R14) -/

def State.reg (s : State) (i : Fin 8) : Byte := s.x[i]

/-- A register write; an 8-bit value is already reduced modulo 256 (R12). -/
def State.setReg (s : State) (i : Fin 8) (v : Byte) : State := { s with x := s.x.set i v }

/-- `x[7]` (R13). -/
def State.sp (s : State) : Byte := s.reg spIndex

/-! ### The memory array (R23, R30 to R33) -/

/-- The byte at an address; an unlisted one holds `emptyByte` (R28, log 9). -/
def Memory.read : Memory → Nat → Byte
  | [], _ => emptyByte
  | (b, w) :: m, a => if a = b then w else Memory.read m a

/-- The byte at an address of the array, none outside it (R32). -/
def Memory.read? (m : Memory) (a : Nat) : Option Byte := if a < memSize then some (Memory.read m a) else none

/-- Sets one cell, keeping the canonical form. -/
def Memory.write : Memory → Nat → Byte → Memory
  | [], a, v => if v = emptyByte then [] else [(a, v)]
  | (b, w) :: m, a, v =>
    if a < b then (if v = emptyByte then (b, w) :: m else (a, v) :: (b, w) :: m)
    else if a = b then (if v = emptyByte then m else (a, v) :: m)
    else (b, w) :: Memory.write m a v

/-- The canonical form from address `lo` up: addresses strictly rising and below `memSize`, no cell equal to `emptyByte`. -/
def Memory.wfFrom (lo : Nat) : Memory → Bool
  | [] => true
  | (a, v) :: m => decide (lo ≤ a) && decide (a < memSize) && decide (v ≠ emptyByte) && Memory.wfFrom (a + 1) m

/-- The canonical form: equal memories are equal lists. -/
def Memory.wf (m : Memory) : Bool := Memory.wfFrom 0 m

/-- `MemRead(addr, 1)` (R32). -/
def State.memRead (s : State) (a : Nat) : Except CoreFault Byte :=
  if a < memSize then .ok (Memory.read s.mem a) else .error (.outOfBoundsMem (BitVec.ofNat 9 a))

def State.setMem (s : State) (a : Nat) (v : Byte) : State := { s with mem := Memory.write s.mem a v }

/-- `MemWrite(addr, 1, v)` (R33). -/
def State.memWrite (s : State) (a : Nat) (v : Byte) : Except CoreFault State :=
  if a < memSize then .ok (s.setMem a v) else .error (.outOfBoundsMem (BitVec.ofNat 9 a))

/-! ### The stack (R100, R101, R104) -/

/-- R100: before a push, `x[7] = 0` raises OutOfBounds(MEM, 0x1FF), the 9-bit value of address -1. -/
def State.pushCheck (s : State) : Except CoreFault Unit :=
  if s.sp = 0 then .error (.outOfBoundsMem 0x1FF) else .ok ()

/-- R101: before a pop, `x[7] >= 0xF4` raises StackUnderflow. -/
def State.popCheck (s : State) : Except CoreFault Unit :=
  if spReset ≤ s.sp then .error (.stackUnderflow s.sp) else .ok ()

/-- The decrement of `x[7]` by a push. -/
def State.decSp (s : State) : State := s.setReg spIndex (s.sp - 1)

/-- The increment of `x[7]` by a pop, modulo 256 (R12). -/
def State.incSp (s : State) : State := s.setReg spIndex (s.sp + 1)

/-! ### The pc (R75 to R77) -/

def State.setPc (s : State) (v : Word9) : State := { s with pc := v }

/-- R75: the sequential increment past the opcode and `nops` operand bytes, in 9 bits (log 11). -/
def State.advance (s : State) (nops : Nat) : State := s.setPc (s.pc + BitVec.ofNat 9 (1 + nops))

/-- R76: a redirect loads a byte zero-extended to 9 bits. -/
def State.redirect (s : State) (target : Byte) : State := s.setPc (target.zeroExtend 9)

/-! ### FL, st, and the output (R21, R24, R91) -/

def State.setFl (s : State) (v : Byte) : State := { s with fl := v }

def State.setSt (s : State) (v : RunState) : State := { s with st := v }

/-- R91: `Output(v)` appends to `out` and drives the output port for this step. -/
def State.output (s : State) (v : Byte) : State := { s with out := s.out ++ [v], outPort := some v }

/-! ### Raising a fault (R171, R176) -/

/-- R171: the cause code. -/
def CoreFault.code : CoreFault → BitVec 3
  | .invalidOpcode _ => 1
  | .outOfBoundsMem _ => 2
  | .outOfBoundsReg _ => 3
  | .stackUnderflow _ => 4

/-- R171: the value of `err_info`. -/
def CoreFault.info : CoreFault → Word9
  | .invalidOpcode op => op.zeroExtend 9
  | .outOfBoundsMem addr => addr
  | .outOfBoundsReg index => index.zeroExtend 9
  | .stackUnderflow sp => sp.zeroExtend 9

/-- R176: fault entry. `s` is the state the step began with, so `s.pc` is `pc0`; nothing else changes, and there is no return
(R179). -/
def State.raise (s : State) (f : CoreFault) : State :=
  { s with errCause := f.code, errPc := s.pc, errInfo := f.info, st := .error }

/-- Runs a handler from `s`: its state if it completes, fault entry from `s` itself if it raises (R177: nothing the handler wrote
before is kept; R82: there is always a next state). -/
def State.attempt (s : State) (handler : Except CoreFault State) : Host.Outcome State Fault Refusal :=
  match handler with
  | .ok t => .next t
  | .error f => .next (s.raise f)

end Sys2Proof.Machine
end

