-- ==== Sys2Proof/Machine/Flags.lean ====
section
/-! DEFINITION. The ALU's three functions (R110, R114) and the flags register's fields (R20). -/

namespace Sys2Proof.Machine

/-- ALU_MUL: `(p * q) mod 256` (R110, R111). -/
def aluMul (p q : Byte) : Byte := BitVec.ofNat 8 (p.toNat * q.toNat)

/-- ALU_ADD: `(p + q) mod 256` (R110, R112). -/
def aluAdd (p q : Byte) : Byte := BitVec.ofNat 8 (p.toNat + q.toNat)

/-- ALU_CMP: the 3-bit result `lge` of an unsigned comparison (R110, R113). -/
def aluCmp (p q : Byte) : BitVec 3 :=
  if p.toNat = q.toNat then 0b001 else if p.toNat < q.toNat then 0b100 else 0b010

/-- FL[0], E (R20). -/
def flagE (fl : Byte) : Bool := fl.getLsbD 0

/-- FL[1], G (R20). -/
def flagG (fl : Byte) : Bool := fl.getLsbD 1

/-- FL[2], L (R20). -/
def flagL (fl : Byte) : Bool := fl.getLsbD 2

/-- The whole register after a COMPARE: bits 7:3 zero, bits 2:0 the ALU's `lge` (R20, R113). -/
def flOfLge (lge : BitVec 3) : Byte := lge.zeroExtend 8

end Sys2Proof.Machine
end

