-- ==== Sys2Proof/Machine/Operands.lean ====
section
/-! DEFINITION. The operand forms (R51, R55, R56): a register-index byte, validated (R74), and an immediate byte, used as it
stands. There are no others. -/

namespace Sys2Proof.Machine

/-- R74: a register-index byte above 7 raises OutOfBounds(REG, byte); the byte is not masked (R55). -/
def regIndex (r : Byte) : Except CoreFault (Fin 8) :=
  if h : r.toNat < 8 then .ok ⟨r.toNat, h⟩ else .error (.outOfBoundsReg r)

/-- R56: an immediate is used as it stands and never checked. -/
def immediate (v : Byte) : Byte := v

end Sys2Proof.Machine
end

