-- ==== Sys2Proof/Machine/Alu.lean ====
section
/-! DEFINITION. MULTIPLY, ADD and COMPARE (spec/43_alu.md). Operand 1 is validated before operand 2 (R74). -/

namespace Sys2Proof.Machine

/-- MULTIPLY a, b (R111). -/
def execMultiply (a b : Byte) (s : State) : Host.Outcome State Fault Refusal :=
  s.attempt do
    let i ← regIndex a
    let j ← regIndex b
    .ok ((s.setReg i (aluMul (s.reg i) (s.reg j))).advance 2)

/-- ADD a, b (R112). -/
def execAdd (a b : Byte) (s : State) : Host.Outcome State Fault Refusal :=
  s.attempt do
    let i ← regIndex a
    let j ← regIndex b
    .ok ((s.setReg i (aluAdd (s.reg i) (s.reg j))).advance 2)

/-- COMPARE a, b (R113). -/
def execCompare (a b : Byte) (s : State) : Host.Outcome State Fault Refusal :=
  s.attempt do
    let i ← regIndex a
    let j ← regIndex b
    .ok ((s.setFl (flOfLge (aluCmp (s.reg i) (s.reg j)))).advance 2)

end Sys2Proof.Machine
end

