-- ==== Sys2Proof/Machine/Control.lean ====
section
/-! DEFINITION. CALL, RETURN, JUMP, JUMP_IF_NOT_EQUAL, JUMP_IF_EQUAL (spec/44_control_transfer.md). -/

namespace Sys2Proof.Machine

/-- CALL r (R120): a return address above 255 raises OutOfBounds(MEM, ret) before PushCheck (R178); `x[r]` is read after the
decrement, so CALL r7 jumps to the decremented pointer. -/
def execCall (r : Byte) (s : State) : Host.Outcome State Fault Refusal :=
  s.attempt do
    let i ← regIndex r
    let ret := s.pc.toNat + 2
    if 255 < ret then .error (.outOfBoundsMem (BitVec.ofNat 9 ret))
    else do
      s.pushCheck
      let t := s.decSp
      let u ← t.memWrite t.sp.toNat (BitVec.ofNat 8 ret)
      .ok (u.redirect (u.reg i))

/-- RETURN (R121). -/
def execRet (s : State) : Host.Outcome State Fault Refusal :=
  s.attempt do
    s.popCheck
    let v ← s.memRead s.sp.toNat
    .ok ((s.redirect v).incSp)

/-- JUMP r (R122). -/
def execJump (r : Byte) (s : State) : Host.Outcome State Fault Refusal :=
  s.attempt do
    let i ← regIndex r
    .ok (s.redirect (s.reg i))

/-- JUMP_IF_NOT_EQUAL r (R123): the register index is validated whether or not the jump is taken (R74). -/
def execJumpIfNotEqual (r : Byte) (s : State) : Host.Outcome State Fault Refusal :=
  s.attempt do
    let i ← regIndex r
    .ok (if flagE s.fl then s.advance 1 else s.redirect (s.reg i))

/-- JUMP_IF_EQUAL r (R124). -/
def execJumpIfEqual (r : Byte) (s : State) : Host.Outcome State Fault Refusal :=
  s.attempt do
    let i ← regIndex r
    .ok (if flagE s.fl then s.redirect (s.reg i) else s.advance 1)

end Sys2Proof.Machine
end

