-- ==== Sys2Proof/Machine/DataMovement.lean ====
section
/-! DEFINITION. LOAD_IMMEDIATE and PRINT (spec/41_data_movement.md). -/

namespace Sys2Proof.Machine

/-- LOAD_IMMEDIATE r, v (R90). -/
def execLoadImmediate (r v : Byte) (s : State) : Host.Outcome State Fault Refusal :=
  s.attempt do
    let i ← regIndex r
    .ok ((s.setReg i (immediate v)).advance 2)

/-- PRINT r (R92). -/
def execPrint (r : Byte) (s : State) : Host.Outcome State Fault Refusal :=
  s.attempt do
    let i ← regIndex r
    .ok ((s.output (s.reg i)).advance 1)

end Sys2Proof.Machine
end

