-- ==== Sys2Proof/Machine/Stack.lean ====
section
/-! DEFINITION. PUSH and POP (spec/42_stack.md). -/

namespace Sys2Proof.Machine

/-- PUSH r (R102): `x[r]` is read after the decrement, so PUSH r7 stores the decremented pointer. -/
def execPush (r : Byte) (s : State) : Host.Outcome State Fault Refusal :=
  s.attempt do
    let i ← regIndex r
    s.pushCheck
    let t := s.decSp
    let u ← t.memWrite t.sp.toNat (t.reg i)
    .ok (u.advance 1)

/-- POP r (R103): `x[7]` is incremented after `x[r]` is written, so POP r7 leaves the popped byte plus one. -/
def execPop (r : Byte) (s : State) : Host.Outcome State Fault Refusal :=
  s.attempt do
    let i ← regIndex r
    s.popCheck
    let v ← s.memRead s.sp.toNat
    .ok ((s.setReg i v).incSp.advance 1)

end Sys2Proof.Machine
end

