-- ==== Sys2Proof/Machine/System.lean ====
section
/-! DEFINITION. HALT (spec/45_system.md). -/

namespace Sys2Proof.Machine

/-- HALT (R140): `pc` stays at the HALT byte. -/
def execHalt (s : State) : Host.Outcome State Fault Refusal :=
  s.attempt (.ok (s.setSt .halted))

end Sys2Proof.Machine
end

