-- ==== Sys2Proof/Syntax.lean ====
section
/-! DEFINITION. The instruction set as syntax: the 13 instructions of R53 with their operand BYTES as fetched (R51), the 13
dispatch entries (R81) and the four formats (R51). -/

namespace Sys2Proof

/-- One constructor per row of the opcode table. An operand is the whole operand byte (R51, R55, R56); that a register-index
byte is at most 7 is a check (`Instr.wellFormed`; the machine makes it by R74). `ret` is RETURN. -/
inductive Instr where
  | halt
  | loadImmediate (r v : Byte)
  | push (r : Byte)
  | pop (r : Byte)
  | multiply (a b : Byte)
  | add (a b : Byte)
  | print (r : Byte)
  | call (r : Byte)
  | ret
  | compare (a b : Byte)
  | jump (r : Byte)
  | jumpIfNotEqual (r : Byte)
  | jumpIfEqual (r : Byte)
  deriving DecidableEq, Repr

/-- The formats of R51. -/
inductive Format where
  /-- no operand, length 1 -/
  | z
  /-- one register operand, length 2 -/
  | r
  /-- two register operands, length 3 -/
  | rr
  /-- register and immediate, length 3 -/
  | ri
  deriving DecidableEq, Repr

/-- Which of the 13 instructions a dispatch-table entry names (R81). -/
inductive Mnemonic where
  | halt | loadImmediate | push | pop | multiply | add | print | call | ret | compare | jump | jumpIfNotEqual | jumpIfEqual
  deriving DecidableEq, Repr

end Sys2Proof
end

