-- ==== Sys2Proof/WellFormed.lean ====
section
/-! DEFINITION. Which instructions are legal: every register-index operand byte is 0..7 (R55); the immediate of LOAD_IMMEDIATE
is any byte (R56, R59). -/

namespace Sys2Proof

/-- R55: the legal values of a register-index byte. -/
def legalReg (r : Byte) : Bool := decide (r.toNat ≤ 7)

/-- R59: within an instruction the only illegal field values are register indices above 7. -/
def Instr.wellFormed : Instr → Bool
  | .halt => true
  | .loadImmediate r _ => legalReg r
  | .push r => legalReg r
  | .pop r => legalReg r
  | .multiply a b => legalReg a && legalReg b
  | .add a b => legalReg a && legalReg b
  | .print r => legalReg r
  | .call r => legalReg r
  | .ret => true
  | .compare a b => legalReg a && legalReg b
  | .jump r => legalReg r
  | .jumpIfNotEqual r => legalReg r
  | .jumpIfEqual r => legalReg r

end Sys2Proof
end

