-- ==== Sys2Proof/Decode.lean ====
section
/-! DEFINITION. The dispatch table (R52, R53, R57, R81), the decoder (R70 steps 1 to 3, total on any bytes, rejecting by name),
the encoder from the same table, the assembly syntax (R60), and the host's `decodeTableWord`. -/

namespace Sys2Proof

/-! ### The dispatch table -/

/-- The default opcode values of R53 (log 1: general knowledge, not in the spec's source). -/
def OpcodeMap.default : OpcodeMap where
  halt           := 0x01
  loadImmediate  := 0x82
  push           := 0x45
  pop            := 0x46
  multiply       := 0xA2
  add            := 0xA0
  print          := 0x47
  call           := 0x50
  ret            := 0x11
  compare        := 0xA7
  jump           := 0x54
  jumpIfNotEqual := 0x56
  jumpIfEqual    := 0x55

/-- The parameter `OPC_<MNEMONIC>` of an entry (R6, R53). -/
def OpcodeMap.code (c : OpcodeMap) : Mnemonic → Byte
  | .halt => c.halt
  | .loadImmediate => c.loadImmediate
  | .push => c.push
  | .pop => c.pop
  | .multiply => c.multiply
  | .add => c.add
  | .print => c.print
  | .call => c.call
  | .ret => c.ret
  | .compare => c.compare
  | .jump => c.jump
  | .jumpIfNotEqual => c.jumpIfNotEqual
  | .jumpIfEqual => c.jumpIfEqual

/-- The 13 entries in the table order of R53. -/
def Mnemonic.all : List Mnemonic :=
  [.halt, .loadImmediate, .push, .pop, .multiply, .add, .print, .call, .ret, .compare, .jump, .jumpIfNotEqual, .jumpIfEqual]

/-- R53: the constraint on the parameters, 13 pairwise distinct byte values. -/
abbrev OpcodeMap.Distinct (c : OpcodeMap) : Prop := (Mnemonic.all.map c.code).Nodup

/-- The format column of R53. -/
def Mnemonic.format : Mnemonic → Format
  | .halt => .z
  | .loadImmediate => .ri
  | .push => .r
  | .pop => .r
  | .multiply => .rr
  | .add => .rr
  | .print => .r
  | .call => .r
  | .ret => .z
  | .compare => .rr
  | .jump => .r
  | .jumpIfNotEqual => .r
  | .jumpIfEqual => .r

/-- How many operand bytes a format has (R51, R70: 0 for Z, 1 for R, 2 for RR and RI). -/
def Format.operands : Format → Nat
  | .z => 0
  | .r => 1
  | .rr => 2
  | .ri => 2

/-- The instruction's length in bytes (R50, R57). -/
def Format.length (f : Format) : Nat := 1 + f.operands

/-- `DispatchLookup` (R52, R72): exact match of the whole opcode byte. -/
def OpcodeMap.lookup (c : OpcodeMap) (op : Byte) : Option Mnemonic :=
  Mnemonic.all.find? fun m => c.code m == op

/-! ### Decoding -/

/-- The instruction of an entry with its operand bytes; an operand the format lacks is not used. -/
def Mnemonic.build (m : Mnemonic) (o1 o2 : Byte) : Instr :=
  match m with
  | .halt => .halt
  | .loadImmediate => .loadImmediate o1 o2
  | .push => .push o1
  | .pop => .pop o1
  | .multiply => .multiply o1 o2
  | .add => .add o1 o2
  | .print => .print o1
  | .call => .call o1
  | .ret => .ret
  | .compare => .compare o1 o2
  | .jump => .jump o1
  | .jumpIfNotEqual => .jumpIfNotEqual o1
  | .jumpIfEqual => .jumpIfEqual o1

/-- What the decoder answers. -/
inductive DecodeResult where
  /-- an instruction -/
  | instr (i : Instr)
  /-- the opcode byte matches no dispatch entry (R58, R72) -/
  | invalidOpcode (op : Byte)
  /-- the byte at offset `k` from the opcode does not exist: 0 the opcode itself (R71), 1 or 2 an operand (R73) -/
  | truncated (k : Nat)
  deriving DecidableEq, Repr

/-- R70 steps 1 to 3, over a reader that gives the byte at an offset from the opcode where one exists: opcode fetch (R71), lookup
(R72), then the operand bytes of the matched format in order (R73). -/
def OpcodeMap.decodeFrom (c : OpcodeMap) (read : Nat → Option Byte) : DecodeResult :=
  match read 0 with
  | none => .truncated 0
  | some op =>
    match c.lookup op with
    | none => .invalidOpcode op
    | some m =>
      match m.format with
      | .z => .instr (m.build 0 0)
      | .r =>
        match read 1 with
        | none => .truncated 1
        | some o1 => .instr (m.build o1 0)
      | .rr | .ri =>
        match read 1 with
        | none => .truncated 1
        | some o1 =>
          match read 2 with
          | none => .truncated 2
          | some o2 => .instr (m.build o1 o2)

/-- The instruction at the head of a list of bytes; further bytes are not looked at. -/
def OpcodeMap.decode (c : OpcodeMap) (bytes : List Byte) : DecodeResult :=
  c.decodeFrom fun k => bytes[k]?

/-- Decoding under the default opcode values. -/
def decode (bytes : List Byte) : DecodeResult := OpcodeMap.default.decode bytes

/-! ### Encoding -/

/-- The dispatch entry an instruction belongs to. -/
def Instr.mnemonic : Instr → Mnemonic
  | .halt => .halt
  | .loadImmediate _ _ => .loadImmediate
  | .push _ => .push
  | .pop _ => .pop
  | .multiply _ _ => .multiply
  | .add _ _ => .add
  | .print _ => .print
  | .call _ => .call
  | .ret => .ret
  | .compare _ _ => .compare
  | .jump _ => .jump
  | .jumpIfNotEqual _ => .jumpIfNotEqual
  | .jumpIfEqual _ => .jumpIfEqual

/-- The operand bytes in memory order (R36, R51). -/
def Instr.operandBytes : Instr → List Byte
  | .halt => []
  | .loadImmediate r v => [r, v]
  | .push r => [r]
  | .pop r => [r]
  | .multiply a b => [a, b]
  | .add a b => [a, b]
  | .print r => [r]
  | .call r => [r]
  | .ret => []
  | .compare a b => [a, b]
  | .jump r => [r]
  | .jumpIfNotEqual r => [r]
  | .jumpIfEqual r => [r]

/-- R50: the opcode byte, then the operand bytes, at ascending addresses. -/
def OpcodeMap.encode (c : OpcodeMap) (i : Instr) : List Byte := c.code i.mnemonic :: i.operandBytes

/-- Encoding under the default opcode values. -/
def encode (i : Instr) : List Byte := OpcodeMap.default.encode i

/-- The instruction's length in bytes, an attribute of its dispatch entry's format (R57). -/
def Instr.length (i : Instr) : Nat := i.mnemonic.format.length

/-! ### Assembly syntax -/

/-- The source's 13 mnemonics (R53, R60). -/
def Mnemonic.name : Mnemonic → String
  | .halt => "HALT"
  | .loadImmediate => "LOAD_IMMEDIATE"
  | .push => "PUSH"
  | .pop => "POP"
  | .multiply => "MULTIPLY"
  | .add => "ADD"
  | .print => "PRINT"
  | .call => "CALL"
  | .ret => "RETURN"
  | .compare => "COMPARE"
  | .jump => "JUMP"
  | .jumpIfNotEqual => "JUMP_IF_NOT_EQUAL"
  | .jumpIfEqual => "JUMP_IF_EQUAL"

/-- R60: `MNEMONIC`, `MNEMONIC operand` or `MNEMONIC operand,operand`; a register is `rN`, an immediate a decimal number. -/
def Instr.asm (i : Instr) : String :=
  let n := fun (b : Byte) => toString b.toNat
  match i.mnemonic.format, i.operandBytes with
  | .r, [r] => i.mnemonic.name ++ " r" ++ n r
  | .rr, [a, b] => i.mnemonic.name ++ " r" ++ n a ++ ",r" ++ n b
  | .ri, [r, v] => i.mnemonic.name ++ " r" ++ n r ++ "," ++ n v
  | _, _ => i.mnemonic.name

/-! ### The table's numbering -/

/-- The longest instruction, in bytes (R50). -/
def maxLength : Nat := 3

/-- The bytes of a word numbered as spec/opcode_table.json numbers its bits: bit 0 is the least significant bit of the FIRST byte
(the opcode at the lowest address), byte `k` is bits `8k+7..8k`; bits from `nbits` up are 0. -/
def tableBytes (nbits w : Nat) : List Byte :=
  (List.range maxLength).map fun k => BitVec.ofNat 8 ((w % 2 ^ nbits) / 2 ^ (8 * k))

/-- The instruction the decoder reads from such a word. -/
def decodeTableWord (nbits w : Nat) : Option Instr :=
  match decode (tableBytes nbits w) with
  | .instr i => some i
  | .invalidOpcode _ => none
  | .truncated _ => none

end Sys2Proof
end

