-- ==== Sys2Proof/Machine/Fetch.lean ====
section
/-! DEFINITION. The fetch unit and decoder (R70 steps 1 to 3, R71 to R73, R80), and placing bytes where it fetches. -/

namespace Sys2Proof.Machine

/-- The byte the fetch unit reads at an offset from `pc`: none past address 255 (R71, R73; the address does not wrap). -/
def State.fetchByte (s : State) (k : Nat) : Option Byte := Memory.read? s.mem (s.pc.toNat + k)

/-- The fetched and decoded instruction, or the fault of R71 to R73. An absent byte at offset `k` is OutOfBounds(MEM, pc + k). -/
def State.fetch (c : OpcodeMap) (s : State) : Except CoreFault Instr :=
  match c.decodeFrom s.fetchByte with
  | .instr i => .ok i
  | .invalidOpcode op => .error (.invalidOpcode op)
  | .truncated k => .error (.outOfBoundsMem (BitVec.ofNat 9 (s.pc.toNat + k)))

/-- Bytes set at ascending addresses from `a`. -/
def State.placeBytes (s : State) (a : Nat) : List Byte → State
  | [] => s
  | b :: bs => (s.setMem a b).placeBytes (a + 1) bs

end Sys2Proof.Machine
end

