-- ==== Sys2Proof/Machine/Ports.lean ====
section
/-! DEFINITION. The ports of R151 and the host actions of R153: what a step boundary samples, reset, load port, start, what the
host can observe, and the loader's side of the boot sequence (R154, R202). -/

namespace Sys2Proof.Machine

/-! ### Inputs -/

/-- The input ports at this step boundary (R150); all low when the host presents nothing (log 3). -/
def State.sampled (s : State) : PortInput := s.inputs.headD {}

/-- Passing a step boundary: the sample is used up and `out_valid` is 0 unless this step prints (R155). -/
def State.beginStep (s : State) : State := { s with inputs := s.inputs.tail, outPort := none }

/-- Reset (R200): every piece of state takes its reset value, whatever `st` is; what the host will present later stays. -/
def State.hostReset (s : State) : State := { State.reset with inputs := s.inputs }

/-- LoadByte (R154): honoured only in Idle. -/
def State.hostLoadByte (s : State) (addr data : Byte) : State :=
  if s.st = .idle then s.setMem addr.toNat data else s

/-- Start (R157): honoured only in Idle. -/
def State.hostStart (s : State) : State :=
  if s.st = .idle then s.setSt .running else s

/-- A step boundary in Idle: the load-port write, then start (R157). -/
def State.idleBoundary (s : State) (p : PortInput) : State :=
  let t := if p.ldWe then s.hostLoadByte p.ldAddr p.ldData else s
  if p.start then t.hostStart else t

/-! ### Outputs -/

/-- The encoding of `st` (R24). -/
def RunState.code : RunState → BitVec 2
  | .idle => 0b00
  | .running => 0b01
  | .halted => 0b10
  | .error => 0b11

/-- `st` on the status output (R156). -/
def State.obsSt (s : State) : BitVec 2 := s.st.code

/-- `out_valid` (R155). -/
def State.outValid (s : State) : Bool := s.outPort.isSome

/-- `out_data`, which means something only while `out_valid = 1` (R151). -/
def State.outData (s : State) : Option Byte := s.outPort

/-- `obs_pc` (R151). -/
def State.obsPc (s : State) : Word9 := s.pc

/-- `obs_fl` (R151). -/
def State.obsFl (s : State) : Byte := s.fl

/-- `obs_rdata` for the 3-bit `obs_raddr` (R151). -/
def State.obsRdata (s : State) (raddr : BitVec 3) : Byte := s.reg raddr.toFin

/-- `obs_mdata` for the 8-bit `obs_maddr` (R151), which means something only while the core is not Running (log 12). -/
def State.obsMdata (s : State) (maddr : Byte) : Option Byte :=
  if s.st = .running then none else some (Memory.read s.mem maddr.toNat)

/-- The line the HOST prints for an output byte: its decimal numeral without leading zeros, then a newline (R91). -/
def hostLine (v : Byte) : String := toString v.toNat ++ "\n"

/-! ### The loader's side of the boot (R154, R202) -/

/-- The samples a loader presents: the image's bytes to consecutive addresses from `k`, one a boundary, then start. -/
def loaderInputsFrom (k : Nat) : List Byte → List PortInput
  | [] => [{ start := true }]
  | b :: bs => { ldWe := true, ldAddr := BitVec.ofNat 8 k, ldData := b } :: loaderInputsFrom (k + 1) bs

/-- Byte k of the image to address k, then start; an image over 256 bytes is the loader's own error and starts no run (R154, D20). -/
def loaderInputs (image : List Byte) : Option (List PortInput) :=
  if image.length ≤ memSize then some (loaderInputsFrom 0 image) else none

end Sys2Proof.Machine
end

