-- ==== Sys2Proof/Machine/Step.lean ====
section
/-! DEFINITION. The step (R70, R79): one step boundary, at which the input ports are sampled, and the step of a Running core. -/

namespace Sys2Proof.Machine

/-- R70: the step of a Running core under an opcode map. -/
def runStep (c : OpcodeMap) (s : State) : Host.Outcome State Fault Refusal :=
  match s.fetch c with
  | .ok i => exec i s
  | .error f => .next (s.raise f)

/-- R79: one step boundary. Reset wins in every state (R200); otherwise Idle obeys the load port and start (R154, R157), Running
performs a step, and Halted and Error stay as they are (log 4, log 5). -/
def stepWith (c : OpcodeMap) (s : State) : Host.Outcome State Fault Refusal :=
  if s.sampled.rst then .next s.beginStep.hostReset
  else
    match s.st with
    | .idle => .next (s.beginStep.idleBoundary s.sampled)
    | .running => runStep c s.beginStep
    | .halted => .next s.beginStep
    | .error => .next s.beginStep

/-- The step under the default opcode values of R53. -/
def step (s : State) : Host.Outcome State Fault Refusal := stepWith OpcodeMap.default s

/-- `s` about to fetch and run the instruction of a word numbered as the opcode table numbers it (log 10): Running, nothing on the
input ports, and the bytes at `pc`, or at 0 where three bytes do not fit at `pc`. It stands for the loader's write and start. -/
def State.withFetchWord (s : State) (nbits w : Nat) : State :=
  let base : Word9 := if s.pc.toNat + maxLength ≤ memSize then s.pc else 0
  ((({ s with inputs := {} :: s.inputs } : State).setSt .running).setPc base).placeBytes base.toNat (tableBytes nbits w)

end Sys2Proof.Machine
end

