-- ==== Sys2Proof/Safety.lean ====
section
/-! DEFINITION. What claims are stated with: the invariant that rules out states no run reaches, the terms of a safe run (R141),
and runs over several step boundaries. -/

namespace Sys2Proof.Machine

/-- R22: the four values FL takes. -/
def legalFl (fl : Byte) : Bool := fl == 0x00 || fl == 0x01 || fl == 0x02 || fl == 0x04

/-- R171: the `err_info` values that go with a cause code; no other code is produced. -/
def legalRecord (cause : BitVec 3) (info : Word9) : Bool :=
  match cause.toNat with
  | 1 => decide (info.toNat ≤ 255)
  | 2 => info == 256 || info == 0x1FF
  | 3 => decide (8 ≤ info.toNat) && decide (info.toNat ≤ 255)
  | 4 => decide (0xF4 ≤ info.toNat) && decide (info.toNat ≤ 255)
  | _ => false

/-- What holds of every state a run from reset reaches. -/
structure State.Inv (s : State) : Prop where
  /-- the memory list is canonical -/
  mem_wf : Memory.wf s.mem = true
  /-- R16 -/
  pc_le : s.pc.toNat ≤ 256
  /-- R22 -/
  fl_legal : legalFl s.fl = true
  /-- R25, R179: the record is 0 until a fault -/
  record_clear : s.st ≠ .error → s.errCause = 0 ∧ s.errPc = 0 ∧ s.errInfo = 0
  /-- R171, R177: in Error it names the fault, and `pc` still stands at the faulting instruction -/
  record_legal : s.st = .error → legalRecord s.errCause s.errInfo = true ∧ s.errPc = s.pc
  /-- R153, R154: before the run the host has touched memory only -/
  idle_fresh : s.st = .idle → s.x = State.reset.x ∧ s.pc = 0 ∧ s.fl = 0 ∧ s.out = []
  /-- R155: the output port shows the last byte of the stream, and only while Running -/
  port_last : ∀ v, s.outPort = some v → s.out.getLast? = some v ∧ s.st = .running

/-- R141: the two ways a run ends. -/
def State.ended (s : State) : Bool := s.st == .halted || s.st == .error

/-- A run is safe while no fault has been entered. -/
def State.safe (s : State) : Bool := s.st != .error

/-- `n` step boundaries under an opcode map. -/
def runWith (c : OpcodeMap) : Nat → State → Host.Outcome State Fault Refusal
  | 0, s => .next s
  | n + 1, s =>
    match stepWith c s with
    | .next t => runWith c n t
    | .fault f => .fault f
    | .refused r => .refused r

end Sys2Proof.Machine
end

