-- ==== Sys2Proof/Certificates/Slice0/Obligations.lean ====
section
/-! DEFINITION. The statements for the provers, and the few terms they are written with (`Sys2Proof.Claims`). The terms restate
tables of the spec (which register an instruction writes, which cell it stores to, the next pc, the first fault) apart from the
machine's own definitions. A statement over `stepWith c` holds for `step`, which is `stepWith OpcodeMap.default`. -/

namespace Sys2Proof.Claims

open Sys2Proof.Machine

/-- The operand byte that names register `i` (R55). -/
def regByte (i : Fin 8) : Byte := BitVec.ofNat 8 i.val

/-- The register a byte names, where it names one. -/
def regOf (s : State) (r : Byte) : Byte := s.x.toList.getD r.toNat 0

/-- A Running core at a step boundary with `rst` low: the next step runs an instruction (R70). -/
abbrev Ready (s : State) : Prop := s.st = .running ∧ s.sampled.rst = false

/-- The bytes from `pc` up to the top of memory. -/
def codeBytes (s : State) : List Byte := (List.range (256 - s.pc.toNat)).map fun k => Memory.read s.mem (s.pc.toNat + k)

/-- An instruction whose opcode byte is `op` and stands at `lo` or above does not fit below address 256: its step raises
OutOfBounds(MEM, 256) (R73). -/
def TopFault (c : OpcodeMap) (op : Byte) (lo : Nat) : Prop :=
  ∀ s : State, Ready s → lo ≤ s.pc.toNat → s.pc.toNat ≤ 255 → Memory.read s.mem s.pc.toNat = op →
    stepWith c s = .next (s.beginStep.raise (.outOfBoundsMem 256))

/-- The "writes" column of R15. -/
def writesReg (i : Instr) (j : Fin 8) : Bool :=
  match i with
  | .halt => false
  | .loadImmediate r _ => r.toNat == j.val
  | .push _ => j == 7
  | .pop r => r.toNat == j.val || j == 7
  | .multiply a _ => a.toNat == j.val
  | .add a _ => a.toNat == j.val
  | .print _ => false
  | .call _ => j == 7
  | .ret => j == 7
  | .compare _ _ => false
  | .jump _ => false
  | .jumpIfNotEqual _ => false
  | .jumpIfEqual _ => false

/-- The one cell an instruction stores to: PUSH and CALL, at `x[7]` after the decrement (R31). -/
def storesTo (i : Instr) (s : State) : Option Nat :=
  match i with
  | .push _ => some s.decSp.sp.toNat
  | .call _ => some s.decSp.sp.toNat
  | .halt => none
  | .loadImmediate _ _ => none
  | .pop _ => none
  | .multiply _ _ => none
  | .add _ _ => none
  | .print _ => none
  | .ret => none
  | .compare _ _ => none
  | .jump _ => none
  | .jumpIfNotEqual _ => none
  | .jumpIfEqual _ => none

/-- R77: the next pc of an instruction that completes. -/
def nextPc (i : Instr) (s : State) : Word9 :=
  match i with
  | .halt => s.pc
  | .push _ => s.pc + 2
  | .pop _ => s.pc + 2
  | .print _ => s.pc + 2
  | .loadImmediate _ _ => s.pc + 3
  | .multiply _ _ => s.pc + 3
  | .add _ _ => s.pc + 3
  | .compare _ _ => s.pc + 3
  | .jump r => (regOf s r).zeroExtend 9
  | .call r => (if r = 7 then regOf s 7 - 1 else regOf s r).zeroExtend 9
  | .ret => (Memory.read s.mem (regOf s 7).toNat).zeroExtend 9
  | .jumpIfNotEqual r => if s.fl.getLsbD 0 = false then (regOf s r).zeroExtend 9 else s.pc + 2
  | .jumpIfEqual r => if s.fl.getLsbD 0 = true then (regOf s r).zeroExtend 9 else s.pc + 2

/-- R171 with the priority of R178: the first fault whose condition holds at a step of `s`. -/
def firstFault (c : OpcodeMap) (s : State) : Option CoreFault :=
  let pc := s.pc.toNat
  let op := Memory.read s.mem pc
  let o1 := Memory.read s.mem (pc + 1)
  let o2 := Memory.read s.mem (pc + 2)
  let sp := s.x[7]
  if 255 < pc then some (.outOfBoundsMem s.pc)
  else if op ∉ [c.halt, c.loadImmediate, c.push, c.pop, c.multiply, c.add, c.print, c.call, c.ret, c.compare, c.jump,
      c.jumpIfNotEqual, c.jumpIfEqual] then some (.invalidOpcode op)
  else if op ≠ c.halt ∧ op ≠ c.ret ∧ 255 < pc + 1 then some (.outOfBoundsMem 256)
  else if op ∈ [c.loadImmediate, c.multiply, c.add, c.compare] ∧ 255 < pc + 2 then some (.outOfBoundsMem 256)
  else if op ≠ c.halt ∧ op ≠ c.ret ∧ 7 < o1.toNat then some (.outOfBoundsReg o1)
  else if op ∈ [c.multiply, c.add, c.compare] ∧ 7 < o2.toNat then some (.outOfBoundsReg o2)
  else if op = c.call ∧ pc + 2 = 256 then some (.outOfBoundsMem 256)
  else if op ∈ [c.push, c.call] ∧ sp = 0 then some (.outOfBoundsMem 0x1FF)
  else if op ∈ [c.pop, c.ret] ∧ 0xF4 ≤ sp.toNat then some (.stackUnderflow sp)
  else none

/-- The instructions of a list one after another (their meanings, without fetching them). -/
def execAll : List Instr → State → Host.Outcome State Fault Refusal
  | [], s => .next s
  | i :: is, s =>
    match exec i s with
    | .next t => execAll is t
    | .fault f => .fault f
    | .refused r => .refused r

end Sys2Proof.Claims

open Sys2Proof Sys2Proof.Machine Sys2Proof.Claims

/-! ### Reset, encoding, decoding -/

/-- The reset values of 10_state.md §8. All but `x[7]` are the spec's own decision (D13, D3, D12, D21; log 2). -/
def Obligations.ResetGivesTheListedValues : Prop :=
  (∀ i : Fin 8, State.reset.reg i = if i = 7 then 0xF4 else 0x00) ∧ State.reset.pc = 0 ∧ State.reset.fl = 0x00 ∧
    (∀ a : Nat, Memory.read State.reset.mem a = 0x00) ∧ State.reset.st = .idle ∧ State.reset.errCause = 0 ∧
    State.reset.errPc = 0 ∧ State.reset.errInfo = 0 ∧ State.reset.out = [] ∧ State.reset.outPort = none

/-- Words written out from the default opcode map of 30_encoding.md §2 (the byte values are general knowledge by GK1: log 1), one or
more of every format, and a byte that is no opcode. -/
def Obligations.DefaultWordsDecodeAsWritten : Prop :=
  OpcodeMap.default.Distinct ∧
    decode [0b00000001] = .instr .halt ∧
    decode [0b10000010, 0b00000011, 0b11111111] = .instr (.loadImmediate 3 255) ∧
    decode [0b01000101, 0b00000111] = .instr (.push 7) ∧
    decode [0b01000110, 0b00000001] = .instr (.pop 1) ∧
    decode [0b10100010, 0b00000000, 0b00000001] = .instr (.multiply 0 1) ∧
    decode [0b10100000, 0b00000111, 0b00000001] = .instr (.add 7 1) ∧
    decode [0b01000111, 0b00000010] = .instr (.print 2) ∧
    decode [0b01010000, 0b00000001] = .instr (.call 1) ∧
    decode [0b00010001] = .instr .ret ∧
    decode [0b10100111, 0b00000001, 0b00000000] = .instr (.compare 1 0) ∧
    decode [0b01010100, 0b00000010] = .instr (.jump 2) ∧
    decode [0b01010110, 0b00000100] = .instr (.jumpIfNotEqual 4) ∧
    decode [0b01010101, 0b00000011] = .instr (.jumpIfEqual 3) ∧
    decode [0b10100001, 0b00000000, 0b00000001] = .invalidOpcode 0b10100001 ∧
    decode [0b10000010, 0b00000011] = .truncated 2

/-- Decode and encode agree, for every opcode map of 13 distinct bytes, every instruction (well-formed or not, so every operand
byte) and whatever bytes follow. -/
def Obligations.DecodingAnEncodingGivesItBack : Prop :=
  ∀ c : OpcodeMap, c.Distinct → ∀ (i : Instr) (rest : List Byte), c.decode (c.encode i ++ rest) = .instr i

/-- The other direction: an instruction is decoded only from bytes that begin with its encoding. -/
def Obligations.DecodedBytesBeginWithTheEncoding : Prop :=
  ∀ (c : OpcodeMap) (bytes : List Byte) (i : Instr), c.decode bytes = .instr i → c.encode i <+: bytes

/-- Exactly 243 of the 256 byte values are illegal opcodes, whichever 13 distinct bytes the map has (30_encoding.md §4; decision D5). -/
def Obligations.Exactly243BytesAreIllegalOpcodes : Prop :=
  ∀ c : OpcodeMap, c.Distinct → ((List.range 256).filter fun b => c.lookup (BitVec.ofNat 8 b) == none).length = 243

/-! ### The step -/

/-- When the bytes at `pc` decode to an instruction, the step of a Running core is that instruction's meaning, in the state in which
the boundary's input sample is used up and the output port is low (log 3, log 7; all operand bytes are fetched first, D25). -/
def Obligations.StepRunsTheDecodedInstruction : Prop :=
  (∀ (c : OpcodeMap) (s : State) (i : Instr), Ready s → c.decode (codeBytes s) = .instr i →
      stepWith c s = exec i { s with inputs := s.inputs.tail, outPort := none }) ∧
    (∀ (s : State) (i : Instr), Ready s → decode (codeBytes s) = .instr i →
      step s = exec i { s with inputs := s.inputs.tail, outPort := none })

/-- Every step has exactly one next state and, unless it is a reset, emits at most one byte (40_fetch_and_dispatch.md §5, marked
derived there). -/
def Obligations.EveryStepHasANextState : Prop :=
  ∀ (c : OpcodeMap) (s : State), ∃ t : State, stepWith c s = .next t ∧
    (s.sampled.rst = false → (t.out = s.out ∧ t.outPort = none) ∨ ∃ v : Byte, t.out = s.out ++ [v] ∧ t.outPort = some v)

/-- R71. -/
def Obligations.OpcodeFetchReadsAtPcOrFaultsAt256 : Prop :=
  (∀ s : State, s.pc.toNat ≤ 255 → s.fetchByte 0 = some (Memory.read s.mem s.pc.toNat)) ∧
    (∀ (c : OpcodeMap) (s : State), Ready s → s.pc = 256 →
      stepWith c s = .next { s.beginStep with errCause := 2, errPc := 256, errInfo := 256, st := .error })

/-- R72: a hit yields the entry, a miss raises InvalidOpcode with the opcode's address and byte. -/
def Obligations.OpcodeMatchesOneEntryOrFaults : Prop :=
  (∀ c : OpcodeMap, c.Distinct → ∀ (m : Mnemonic) (b : Byte), c.lookup b = some m ↔ b = c.code m) ∧
    (∀ (c : OpcodeMap) (s : State), Ready s → s.pc.toNat ≤ 255 →
      (∀ m : Mnemonic, Memory.read s.mem s.pc.toNat ≠ c.code m) →
      stepWith c s = .next { s.beginStep with errCause := 1, errPc := s.pc,
                                              errInfo := (Memory.read s.mem s.pc.toNat).zeroExtend 9, st := .error })

/-- Operand fetch past the top reports 256, whichever operand fails first (40_fetch_and_dispatch.md §2, decisions D6 and D11). -/
def Obligations.OperandFetchPastTheTopReports256 : Prop :=
  ∀ c : OpcodeMap, c.Distinct →
    (∀ m : Mnemonic, m.format = .r → TopFault c (c.code m) 255) ∧
      (∀ m : Mnemonic, m.format = .rr ∨ m.format = .ri → TopFault c (c.code m) 254)

/-- A register-index byte above 7 raises OutOfBounds(REG) with the first such byte, before any stack check and whether or not a jump
would be taken (40_fetch_and_dispatch.md §2, decisions D7 and D25); LOAD_IMMEDIATE's immediate is not checked. -/
def Obligations.IllFormedInstructionsRaiseTheFirstBadIndex : Prop :=
  ∀ (i : Instr) (s : State), s.st = .running →
    (i.wellFormed = false → ∃ r : Byte, (i.operandBytes.find? fun b => decide (7 < b.toNat)) = some r ∧
      exec i s = .next (s.raise (.outOfBoundsReg r))) ∧
      (i.wellFormed = true → ∀ r : Byte, exec i s ≠ .next (s.raise (.outOfBoundsReg r)))

/-- R77: the next-pc selection, complete. -/
def Obligations.NextPcIsTheSelectedOne : Prop :=
  (∀ (i : Instr) (s t : State), s.st = .running → exec i s = .next t →
      t.pc = if t.st = .error then s.pc else nextPc i s) ∧
    (∀ (c : OpcodeMap) (s t : State), Ready s → stepWith c s = .next t → t.st = .error → t.pc = s.pc)

/-! ### The instructions -/

/-- R90. The byte 0x82 is the spec's default (GK1: log 1). -/
def Obligations.LoadImmediateWritesItsByte : Prop :=
  (∀ (i : Fin 8) (v : Byte) (s : State),
      exec (.loadImmediate (regByte i) v) s = .next { s with x := s.x.set i v, pc := s.pc + 3 }) ∧
    (∀ (r v : Byte) (s : State), 7 < r.toNat → exec (.loadImmediate r v) s = .next (s.raise (.outOfBoundsReg r))) ∧
    (∀ (i : Fin 8) (v : Byte) (s : State), ∃ t u : State, exec (.loadImmediate (regByte i) v) s = .next t ∧
      exec (.print (regByte i)) t = .next u ∧ u.out = s.out ++ [v]) ∧
    (∀ c : OpcodeMap, c.Distinct → TopFault c c.loadImmediate 254) ∧
    (∀ (c : OpcodeMap) (r v : Byte), c.encode (.loadImmediate r v) = [c.loadImmediate, r, v]) ∧
    OpcodeMap.default.loadImmediate = 0x82

/-- R92. The byte 0x47 is the spec's default (GK1: log 1). -/
def Obligations.PrintEmitsTheRegister : Prop :=
  (∀ (i : Fin 8) (s : State), exec (.print (regByte i)) s =
      .next { s with out := s.out ++ [s.reg i], outPort := some (s.reg i), pc := s.pc + 2 }) ∧
    (∀ (r : Byte) (s : State), 7 < r.toNat → exec (.print r) s = .next (s.raise (.outOfBoundsReg r))) ∧
    (∀ c : OpcodeMap, c.Distinct → TopFault c c.print 255) ∧
    (∀ (c : OpcodeMap) (r : Byte), c.encode (.print r) = [c.print, r]) ∧ OpcodeMap.default.print = 0x47

/-- PUSH (42_stack.md; decisions D9 and D15): the register is read after the decrement, so PUSH r7 stores the decremented pointer. -/
def Obligations.PushDecrementsThenStores : Prop :=
  (∀ (i : Fin 8) (s : State), s.reg 7 ≠ 0 → exec (.push (regByte i)) s =
      .next { s with x := s.x.set 7 (s.reg 7 - 1),
                     mem := Memory.write s.mem ((s.reg 7).toNat - 1) (if i = 7 then s.reg 7 - 1 else s.reg i),
                     pc := s.pc + 2 }) ∧
    (∀ (i : Fin 8) (s : State), s.reg 7 = 0 → exec (.push (regByte i)) s = .next (s.raise (.outOfBoundsMem 0x1FF))) ∧
    (∀ (r : Byte) (s : State), 7 < r.toNat → exec (.push r) s = .next (s.raise (.outOfBoundsReg r)))

/-- POP (42_stack.md; decisions D8 and D15): `x[7]` is incremented after the load, so POP r7 leaves the popped byte plus one. -/
def Obligations.PopLoadsThenIncrements : Prop :=
  (∀ (i : Fin 8) (s : State), (s.reg 7).toNat < 0xF4 → i ≠ 7 → exec (.pop (regByte i)) s =
      .next { s with x := (s.x.set i (Memory.read s.mem (s.reg 7).toNat)).set 7 (s.reg 7 + 1), pc := s.pc + 2 }) ∧
    (∀ s : State, (s.reg 7).toNat < 0xF4 → exec (.pop 7) s =
      .next { s with x := s.x.set 7 (Memory.read s.mem (s.reg 7).toNat + 1), pc := s.pc + 2 }) ∧
    (∀ (i : Fin 8) (s : State), 0xF4 ≤ (s.reg 7).toNat → exec (.pop (regByte i)) s = .next (s.raise (.stackUnderflow (s.reg 7)))) ∧
    (∀ (r : Byte) (s : State), 7 < r.toNat → exec (.pop r) s = .next (s.raise (.outOfBoundsReg r)))

/-- R111. The byte 0xA2 is the spec's default (GK1: log 1). -/
def Obligations.MultiplyKeepsTheLowByte : Prop :=
  (∀ (i j : Fin 8) (s : State), exec (.multiply (regByte i) (regByte j)) s =
      .next { s with x := s.x.set i (BitVec.ofNat 8 ((s.reg i).toNat * (s.reg j).toNat % 256)), pc := s.pc + 3 }) ∧
    (∀ (a b : Byte) (s : State), 7 < a.toNat → exec (.multiply a b) s = .next (s.raise (.outOfBoundsReg a))) ∧
    (∀ (i : Fin 8) (b : Byte) (s : State), 7 < b.toNat →
      exec (.multiply (regByte i) b) s = .next (s.raise (.outOfBoundsReg b))) ∧
    (∀ c : OpcodeMap, c.Distinct → TopFault c c.multiply 254) ∧
    (∀ (c : OpcodeMap) (a b : Byte), c.encode (.multiply a b) = [c.multiply, a, b]) ∧ OpcodeMap.default.multiply = 0xA2

/-- R112. The byte 0xA0 is the spec's default (GK1: log 1). -/
def Obligations.AddKeepsTheLowByte : Prop :=
  (∀ (i j : Fin 8) (s : State), exec (.add (regByte i) (regByte j)) s =
      .next { s with x := s.x.set i (BitVec.ofNat 8 (((s.reg i).toNat + (s.reg j).toNat) % 256)), pc := s.pc + 3 }) ∧
    (∀ (a b : Byte) (s : State), 7 < a.toNat → exec (.add a b) s = .next (s.raise (.outOfBoundsReg a))) ∧
    (∀ (i : Fin 8) (b : Byte) (s : State), 7 < b.toNat → exec (.add (regByte i) b) s = .next (s.raise (.outOfBoundsReg b))) ∧
    (∀ c : OpcodeMap, c.Distinct → TopFault c c.add 254) ∧
    (∀ (c : OpcodeMap) (a b : Byte), c.encode (.add a b) = [c.add, a, b]) ∧ OpcodeMap.default.add = 0xA0

/-- COMPARE (43_alu.md; that the comparison is of unsigned values is decision D19): FL is overwritten whole. -/
def Obligations.CompareSetsExactlyOneFlag : Prop :=
  (∀ (i j : Fin 8) (s : State), exec (.compare (regByte i) (regByte j)) s =
      .next { s with fl := if (s.reg i).toNat = (s.reg j).toNat then 0x01
                           else if (s.reg i).toNat < (s.reg j).toNat then 0x04 else 0x02,
                     pc := s.pc + 3 }) ∧
    (∀ (a b : Byte) (s : State), 7 < a.toNat → exec (.compare a b) s = .next (s.raise (.outOfBoundsReg a))) ∧
    (∀ (i : Fin 8) (b : Byte) (s : State), 7 < b.toNat →
      exec (.compare (regByte i) b) s = .next (s.raise (.outOfBoundsReg b)))

/-- CALL (44_control_transfer.md; decisions D9, D10, D15): pushes `pc + 2`, then loads the pc from the register, read after the
decrement. -/
def Obligations.CallPushesTheReturnAddress : Prop :=
  (∀ (i : Fin 8) (s : State), s.pc.toNat ≤ 253 → s.reg 7 ≠ 0 → exec (.call (regByte i)) s =
      .next { s with x := s.x.set 7 (s.reg 7 - 1),
                     mem := Memory.write s.mem ((s.reg 7).toNat - 1) (BitVec.ofNat 8 (s.pc.toNat + 2)),
                     pc := (if i = 7 then s.reg 7 - 1 else s.reg i).zeroExtend 9 }) ∧
    (∀ (i : Fin 8) (s : State), s.pc.toNat = 254 → exec (.call (regByte i)) s = .next (s.raise (.outOfBoundsMem 256))) ∧
    (∀ (i : Fin 8) (s : State), s.pc.toNat ≤ 253 → s.reg 7 = 0 →
      exec (.call (regByte i)) s = .next (s.raise (.outOfBoundsMem 0x1FF))) ∧
    (∀ (r : Byte) (s : State), 7 < r.toNat → exec (.call r) s = .next (s.raise (.outOfBoundsReg r)))

/-- RETURN (44_control_transfer.md; one increment by decision D16, underflow at or above 0xF4 by D8). -/
def Obligations.ReturnPopsThePc : Prop :=
  (∀ s : State, (s.reg 7).toNat < 0xF4 → exec .ret s =
      .next { s with pc := (Memory.read s.mem (s.reg 7).toNat).zeroExtend 9, x := s.x.set 7 (s.reg 7 + 1) }) ∧
    (∀ s : State, 0xF4 ≤ (s.reg 7).toNat → exec .ret s = .next (s.raise (.stackUnderflow (s.reg 7))))

/-- R122. The byte 0x54 is the spec's default (GK1: log 1). -/
def Obligations.JumpLoadsThePc : Prop :=
  (∀ (i : Fin 8) (s : State), exec (.jump (regByte i)) s = .next { s with pc := (s.reg i).zeroExtend 9 }) ∧
    (∀ (r : Byte) (s : State), 7 < r.toNat → exec (.jump r) s = .next (s.raise (.outOfBoundsReg r))) ∧
    (∀ c : OpcodeMap, c.Distinct → TopFault c c.jump 255) ∧
    (∀ (c : OpcodeMap) (r : Byte), c.encode (.jump r) = [c.jump, r]) ∧ OpcodeMap.default.jump = 0x54

/-- JUMP_IF_NOT_EQUAL (44_control_transfer.md; the faults of an untaken jump are decision D25). -/
def Obligations.JumpIfNotEqualTestsTheEqualBit : Prop :=
  (∀ (i : Fin 8) (s : State), s.fl.getLsbD 0 = false →
      exec (.jumpIfNotEqual (regByte i)) s = .next { s with pc := (s.reg i).zeroExtend 9 }) ∧
    (∀ (i : Fin 8) (s : State), s.fl.getLsbD 0 = true →
      exec (.jumpIfNotEqual (regByte i)) s = .next { s with pc := s.pc + 2 }) ∧
    (∀ (r : Byte) (s : State), 7 < r.toNat → exec (.jumpIfNotEqual r) s = .next (s.raise (.outOfBoundsReg r)))

/-- JUMP_IF_EQUAL (44_control_transfer.md; the faults of an untaken jump are decision D25). -/
def Obligations.JumpIfEqualTestsTheEqualBit : Prop :=
  (∀ (i : Fin 8) (s : State), s.fl.getLsbD 0 = true →
      exec (.jumpIfEqual (regByte i)) s = .next { s with pc := (s.reg i).zeroExtend 9 }) ∧
    (∀ (i : Fin 8) (s : State), s.fl.getLsbD 0 = false →
      exec (.jumpIfEqual (regByte i)) s = .next { s with pc := s.pc + 2 }) ∧
    (∀ (r : Byte) (s : State), 7 < r.toNat → exec (.jumpIfEqual r) s = .next (s.raise (.outOfBoundsReg r)))

/-- HALT (45_system.md; that the pc stays is decision D17), and a HALT at the last address is legal. -/
def Obligations.HaltEndsTheRun : Prop :=
  (∀ s : State, exec .halt s = .next { s with st := .halted }) ∧
    (∀ (c : OpcodeMap) (s : State), c.Distinct → Ready s → s.pc.toNat ≤ 255 → Memory.read s.mem s.pc.toNat = c.halt →
      stepWith c s = .next { s.beginStep with st := .halted })

/-! ### Frames -/

/-- The "writes" column of 10_state.md's register table: no other register changes, whether the instruction completes or raises. -/
def Obligations.OnlyTheListedRegistersChange : Prop :=
  ∀ (i : Instr) (s t : State) (j : Fin 8), exec i s = .next t → writesReg i j = false → t.reg j = s.reg j

/-- PUSH and CALL change at most the cell at the decremented `x[7]`; no other instruction changes any byte. -/
def Obligations.OnlyTheStackCellIsStored : Prop :=
  ∀ (i : Instr) (s t : State), exec i s = .next t → ∀ a : Nat, storesTo i s ≠ some a → Memory.read t.mem a = Memory.read s.mem a

/-- R21: COMPARE alone writes FL, the conditional jumps alone read it and only its bit 0, nothing moves it elsewhere, and the
observation output shows it whole. -/
def Obligations.FlagsAreWrittenByCompareAndReadAtBitZero : Prop :=
  (∀ (i : Instr) (s t : State), exec i s = .next t → (∀ a b : Byte, i ≠ .compare a b) → t.fl = s.fl) ∧
    (∀ (a b : Byte) (s t : State), exec (.compare a b) s = .next t →
      t.fl = 0x01 ∨ t.fl = 0x02 ∨ t.fl = 0x04 ∨ t = s.raise (.outOfBoundsReg a) ∨ t = s.raise (.outOfBoundsReg b)) ∧
    (∀ (i : Instr) (s t : State) (f : Byte), exec i s = .next t → (∀ a b : Byte, i ≠ .compare a b) →
      (∀ r : Byte, i ≠ .jumpIfEqual r ∧ i ≠ .jumpIfNotEqual r) ∨ f.getLsbD 0 = s.fl.getLsbD 0 →
      exec i { s with fl := f } = .next { t with fl := f }) ∧
    (∀ (i j : Fin 8) (s : State) (f : Byte),
      exec (.compare (regByte i) (regByte j)) { s with fl := f } = exec (.compare (regByte i) (regByte j)) s) ∧
    ∀ s : State, s.obsFl = s.fl

/-- What an instruction that completes leaves alone besides registers, FL, memory and pc: the error record, the input samples, `st`
(but for HALT) and the output (but for PRINT). -/
def Obligations.StatusAndOutputFrame : Prop :=
  ∀ (i : Instr) (s t : State), s.st = .running → exec i s = .next t → t.st ≠ .error →
    t.errCause = s.errCause ∧ t.errPc = s.errPc ∧ t.errInfo = s.errInfo ∧ t.inputs = s.inputs ∧
      t.st = (if i = .halt then .halted else .running) ∧
      ((∀ r : Byte, i ≠ .print r) → t.out = s.out ∧ t.outPort = s.outPort)

/-! ### Faults -/

/-- Fault entry (60_exceptions.md §3, R176): a step that ends in Error has changed `st` and the record and nothing else. The codes and
infos are the cause table's (§2): the code numbers are the spec's decision D12, that a register byte above 7 faults D7, underflow at or
above 0xF4 D8, the push from 0 as 0x1FF D9, CALL's return address D10, a fetch past the top as 256 D6. -/
def Obligations.FaultEntryChangesOnlyStAndTheRecord : Prop :=
  ∀ (c : OpcodeMap) (s t : State), Ready s → stepWith c s = .next t → t.st = .error →
    ∃ (cause : BitVec 3) (info : Word9), t = { s.beginStep with errCause := cause, errPc := s.pc, errInfo := info, st := .error } ∧
      ((cause = 1 ∧ info = (Memory.read s.mem s.pc.toNat).zeroExtend 9) ∨
        (cause = 2 ∧ ((info = 0x1FF ∧ s.reg 7 = 0) ∨
          (info = 256 ∧ 254 ≤ s.pc.toNat ∧ s.pc.toNat ≤ 255) ∨ (info = s.pc ∧ 255 < s.pc.toNat))) ∨
        (cause = 3 ∧ ∃ k : Nat, 1 ≤ k ∧ k ≤ 2 ∧ 7 < (Memory.read s.mem (s.pc.toNat + k)).toNat ∧
          info = (Memory.read s.mem (s.pc.toNat + k)).zeroExtend 9) ∨
        (cause = 4 ∧ 0xF4 ≤ (s.reg 7).toNat ∧ info = (s.reg 7).zeroExtend 9))

/-- The complete cause table with its fixed priority (60_exceptions.md §2 and §3, decisions D5 to D12): a step faults exactly when a
condition holds, and raises the first that does. -/
def Obligations.StepRaisesExactlyTheFirstFault : Prop :=
  ∀ (c : OpcodeMap) (s : State), c.Distinct → Ready s →
    match firstFault c s with
    | some f => stepWith c s = .next (s.beginStep.raise f)
    | none => ∃ t : State, stepWith c s = .next t ∧ t.st ≠ .error

/-- OutOfBounds(MEM) reports 256 or 0x1FF and nothing else, never 257, from a pc the machine can hold (60_exceptions.md §2). -/
def Obligations.OutOfBoundsMemReports256Or1FF : Prop :=
  ∀ (c : OpcodeMap) (s t : State), Ready s → s.pc.toNat ≤ 256 → stepWith c s = .next t → t.st = .error → t.errCause = 2 →
    t.errInfo = 256 ∨ t.errInfo = 0x1FF

/-- R179: Error is terminal, the record stays as fault entry wrote it however many boundaries pass, and reset alone leaves Error and
clears the record. -/
def Obligations.ErrorIsLeftByResetAlone : Prop :=
  (∀ (c : OpcodeMap) (n : Nat) (s : State), s.st = .error → (∀ p ∈ s.inputs, p.rst = false) →
      runWith c (n + 1) s = .next { s with inputs := s.inputs.drop (n + 1), outPort := none }) ∧
    (∀ (c : OpcodeMap) (s : State), s.st = .error → s.sampled.rst = true →
      stepWith c s = .next { State.reset with inputs := s.inputs.tail }) ∧
    State.reset.errCause = 0 ∧ State.reset.errPc = 0 ∧ State.reset.errInfo = 0

/-! ### The FSM and the host's ports -/

/-- The FSM transitions, complete (40_fetch_and_dispatch.md §4; that Idle exists is decision D3; that Halted and Error answer a
step boundary with themselves is log 4). -/
def Obligations.FsmFollowsItsTransitionTable : Prop :=
  ∀ (c : OpcodeMap) (s t : State), stepWith c s = .next t →
    (s.sampled.rst = true → t.st = .idle) ∧
      (s.sampled.rst = false →
        (s.st = .idle → t.st = if s.sampled.start then .running else .idle) ∧
        (s.st = .running → t.st = .running ∨ t.st = .halted ∨ t.st = .error) ∧
        (s.st = .running → (t.st = .halted ↔ c.decode (codeBytes s) = .instr .halt)) ∧
        (s.st = .halted → t = s.beginStep) ∧ (s.st = .error → t = s.beginStep))

/-- Reset from any state gives every register, cell and status its reset value (70_reset_and_hazards.md §1, decisions D13 and D21);
what the host presents later is not the core's and stays (log 5). -/
def Obligations.ResetFromAnyStateGivesTheResetState : Prop :=
  ∀ (c : OpcodeMap) (s : State), s.sampled.rst = true → stepWith c s = .next { State.reset with inputs := s.inputs.tail }

/-- A boundary in Idle writes the presented byte and then obeys start; nothing else changes (50_interfaces.md §2, decisions D3, D20). -/
def Obligations.IdleObeysTheLoadPortAndStart : Prop :=
  ∀ (c : OpcodeMap) (s : State), s.st = .idle → s.sampled.rst = false →
    stepWith c s = .next { s with inputs := s.inputs.tail, outPort := none,
                                  mem := if s.sampled.ldWe then Memory.write s.mem s.sampled.ldAddr.toNat s.sampled.ldData else s.mem,
                                  st := if s.sampled.start then .running else .idle }

/-- R153's last part: outside Idle the load port and start have no effect, whatever they carry. -/
def Obligations.HostCannotActOutsideIdle : Prop :=
  ∀ (c : OpcodeMap) (s : State) (p q : PortInput) (later : List PortInput), s.st ≠ .idle → p.rst = false → q.rst = false →
    stepWith c { s with inputs := p :: later } = stepWith c { s with inputs := q :: later }

/-- The boot sequence (70_reset_and_hazards.md §2, 50_interfaces.md §2): after the loader's samples for an image that fits, the core is
Running at 0 with the image in memory and everything else as reset left it; a longer image starts no run (D20). The samples are
the model's way from reset to a program (log 3, log 10). -/
def Obligations.BootLoadsTheImageAndStartsAtZero : Prop :=
  ∀ (c : OpcodeMap) (image : List Byte),
    (image.length ≤ 256 → ∃ (ps : List PortInput) (t : State), loaderInputs image = some ps ∧
      runWith c ps.length { State.reset with inputs := ps } = .next t ∧ ps.length = image.length + 1 ∧
      t = { State.reset with mem := t.mem, st := .running } ∧ Memory.wf t.mem = true ∧
      ∀ a : Nat, a < 256 → Memory.read t.mem a = image.getD a 0x00) ∧
    (256 < image.length → loaderInputs image = none)

/-! ### Invariants -/

/-- The invariant holds after reset. -/
def Obligations.InvariantHoldsAtReset : Prop := State.reset.Inv

/-- Every step keeps the invariant, from every state that meets it: canonical memory, pc at most 256, FL one of its four values, the
error record clear until a fault and legal after it, Idle untouched but for memory, the output port in step with the stream. -/
def Obligations.EveryStepKeepsTheInvariant : Prop :=
  ∀ (c : OpcodeMap) (s t : State), s.Inv → stepWith c s = .next t → t.Inv

/-- Whatever the host presents after reset, and however many boundaries pass, the run goes on and meets the invariant: the
induction that `EveryStepKeepsTheInvariant` is the step of. -/
def Obligations.EveryReachableStateMeetsTheInvariant : Prop :=
  ∀ (c : OpcodeMap) (ps : List PortInput) (n : Nat), ∃ t : State,
    runWith c n { State.reset with inputs := ps } = .next t ∧ t.Inv

/-! ### Memory -/

/-- Two canonical memories that read alike at every address are equal data (log 9). -/
def Obligations.CanonicalMemoriesThatReadAlikeAreEqual : Prop :=
  ∀ m n : Memory, Memory.wf m = true → Memory.wf n = true → (∀ a : Nat, a < 256 → Memory.read m a = Memory.read n a) → m = n

/-- R33: MemWrite sets one cell inside the array and raises outside it; a return address that is stored fits a byte. -/
def Obligations.MemWriteSetsOneCellOrRaises : Prop :=
  (∀ (s : State) (a : Nat) (v : Byte), a ≤ 255 → ∃ t : State, s.memWrite a v = .ok t ∧ t = { s with mem := t.mem } ∧
      (Memory.wf s.mem = true → Memory.read t.mem a = v) ∧ ∀ b : Nat, b ≠ a → Memory.read t.mem b = Memory.read s.mem b) ∧
    (∀ (s : State) (a : Nat) (v : Byte), 255 < a → s.memWrite a v = .error (.outOfBoundsMem (BitVec.ofNat 9 a))) ∧
    (∀ (i : Fin 8) (s t : State), s.st = .running → exec (.call (regByte i)) s = .next t → t.st ≠ .error → s.pc.toNat + 2 ≤ 255)

/-- No step of a Running core changes `M[0xFF]` (20_memory.md §1, marked derived there). -/
def Obligations.NoInstructionWritesTheTopCell : Prop :=
  ∀ (c : OpcodeMap) (s t : State), Ready s → stepWith c s = .next t → Memory.read t.mem 255 = Memory.read s.mem 255

/-- A pushed byte is what the next opcode fetch from its cell reads (20_memory.md §3, marked derived there). -/
def Obligations.PushedByteIsFetchedNext : Prop :=
  ∀ (i : Fin 8) (s : State), Memory.wf s.mem = true → s.reg 7 ≠ 0 → ∃ t : State, exec (.push (regByte i)) s = .next t ∧
    ({ t with pc := (t.reg 7).zeroExtend 9 } : State).fetchByte 0 = some (if i = 7 then s.reg 7 - 1 else s.reg i)

/-! ### Output, branches, the stack -/

/-- Only PRINT emits: a step of a Running core leaves the stream and drives no output, or it ran a PRINT of a legal register and
appended exactly that register (50_interfaces.md §2, decision D18). -/
def Obligations.OnlyPrintEmits : Prop :=
  ∀ (c : OpcodeMap) (s t : State), Ready s → stepWith c s = .next t →
    (t.out = s.out ∧ t.outPort = none) ∨
      ∃ i : Fin 8, c.decode (codeBytes s) = .instr (.print (regByte i)) ∧ t.out = s.out ++ [s.reg i] ∧ t.outPort = some (s.reg i)

/-- Exactly one of the two conditional jumps is taken, JUMP_IF_EQUAL when and only when the last COMPARE's operands were equal
(44_control_transfer.md, marked derived there). -/
def Obligations.ExactlyOneConditionalJumpIsTaken : Prop :=
  ∀ (i j k : Fin 8) (s : State), ∃ t u v : State, exec (.compare (regByte i) (regByte j)) s = .next t ∧
    exec (.jumpIfEqual (regByte k)) t = .next u ∧ exec (.jumpIfNotEqual (regByte k)) t = .next v ∧
    if s.reg i = s.reg j then u.pc = (s.reg k).zeroExtend 9 ∧ v.pc = s.pc + 5 else u.pc = s.pc + 5 ∧ v.pc = (s.reg k).zeroExtend 9

/-- A pushed register comes back by a POP into any register but 7, with `x[7]` as before, whatever ran in between that left `x[7]`
and the cell alone; PUSH r7 then POP r7 leaves `x[7]` (42_stack.md, marked derived there). -/
def Obligations.PopGivesBackWhatPushStored : Prop :=
  ∀ s : State, Memory.wf s.mem = true → s.reg 7 ≠ 0 → (s.reg 7).toNat ≤ 0xF4 →
    (∀ i j : Fin 8, i ≠ 7 → j ≠ 7 → ∃ t : State, exec (.push (regByte i)) s = .next t ∧
      ∀ w : State, w.reg 7 = t.reg 7 → Memory.read w.mem (t.reg 7).toNat = Memory.read t.mem (t.reg 7).toNat →
        ∃ u : State, exec (.pop (regByte j)) w = .next u ∧ u.reg j = s.reg i ∧ u.reg 7 = s.reg 7) ∧
      (∃ t u : State, exec (.push 7) s = .next t ∧ exec (.pop 7) t = .next u ∧ u.reg 7 = s.reg 7)

/-- Last in, first out: registers pushed in order and then popped and printed one by one come out in reverse order, and `x[7]` is as
before (42_stack.md, marked derived there). -/
def Obligations.PopsReversePushes : Prop :=
  ∀ (rs : List (Fin 8)) (j : Fin 8) (s : State), Memory.wf s.mem = true → rs.length ≤ (s.reg 7).toNat → (s.reg 7).toNat ≤ 0xF4 →
    7 ∉ rs → j ≠ 7 →
    ∃ t : State, execAll (rs.map (fun r => Instr.push (regByte r)) ++
        rs.flatMap (fun _ => [Instr.pop (regByte j), Instr.print (regByte j)])) s = .next t ∧
      t.out = s.out ++ (rs.map s.reg).reverse ∧ t.reg 7 = s.reg 7

/-- CALL then RETURN resumes at the CALL's address plus 2 with `x[7]` as before, whatever ran in between that left `x[7]` and the cell
alone (44_control_transfer.md, marked derived there). -/
def Obligations.ReturnResumesAfterTheCall : Prop :=
  ∀ (i : Fin 8) (s : State), Memory.wf s.mem = true → s.pc.toNat ≤ 253 → s.reg 7 ≠ 0 → (s.reg 7).toNat ≤ 0xF4 →
    ∃ t : State, exec (.call (regByte i)) s = .next t ∧
      ∀ w : State, w.reg 7 = t.reg 7 → Memory.read w.mem (t.reg 7).toNat = Memory.read t.mem (t.reg 7).toNat →
        ∃ u : State, exec .ret w = .next u ∧ u.pc = s.pc + 2 ∧ u.reg 7 = s.reg 7
end

