-- ==== Sys2Proof/Laws/Decode.lean ====
section
/-! SUPPORT. The dispatch table: what a lookup finds. -/

namespace Sys2Proof

theorem Mnemonic.mem_all (m : Mnemonic) : m ∈ Mnemonic.all := by cases m <;> decide

theorem OpcodeMap.code_injective {c : OpcodeMap} (hc : c.Distinct) {m n : Mnemonic} (h : c.code m = c.code n) : m = n :=
  List.inj_on_of_nodup_map hc m.mem_all n.mem_all h

/-- A hit names an entry that has this opcode byte, under any map. -/
theorem OpcodeMap.code_of_lookup {c : OpcodeMap} {op : Byte} {m : Mnemonic} (h : c.lookup op = some m) : c.code m = op := by
  simpa using List.find?_some h

theorem OpcodeMap.lookup_eq_none {c : OpcodeMap} {op : Byte} : c.lookup op = none ↔ ∀ m : Mnemonic, c.code m ≠ op := by
  simp only [OpcodeMap.lookup, List.find?_eq_none, beq_iff_eq]
  exact ⟨fun h m => h m m.mem_all, fun h m _ => h m⟩

end Sys2Proof
end

