-- ==== Sys2Proof/Laws/Memory.lean ====
section
/-! SUPPORT. The memory array: every operation keeps the canonical form, and what a read gives after a write. -/

namespace Sys2Proof.Machine

theorem Memory.wfFrom_cons {lo b : Nat} {w : Byte} {m : Memory} :
    Memory.wfFrom lo ((b, w) :: m) = true ↔ lo ≤ b ∧ b < memSize ∧ w ≠ emptyByte ∧ Memory.wfFrom (b + 1) m = true := by
  simp [Memory.wfFrom, and_assoc]

theorem Memory.wfFrom_mono {lo lo' : Nat} {m : Memory} (hle : lo' ≤ lo) (h : Memory.wfFrom lo m = true) :
    Memory.wfFrom lo' m = true := by
  cases m with
  | nil => rfl
  | cons c m =>
    rw [Memory.wfFrom_cons] at h ⊢
    exact ⟨by omega, h.2⟩

/-- A canonical list has no cell below its bound. -/
theorem Memory.read_below {lo a : Nat} {m : Memory} (h : Memory.wfFrom lo m = true) (ha : a < lo) :
    Memory.read m a = emptyByte := by
  induction m generalizing lo with
  | nil => rfl
  | cons c m ih =>
    obtain ⟨b, w⟩ := c
    rw [Memory.wfFrom_cons] at h
    have hne : a ≠ b := by omega
    simp only [Memory.read, if_neg hne]
    exact ih h.2.2.2 (by omega)

theorem Memory.wfFrom_write {lo a : Nat} {m : Memory} (v : Byte) (h : Memory.wfFrom lo m = true) (hlo : lo ≤ a)
    (ha : a < memSize) : Memory.wfFrom lo (Memory.write m a v) = true := by
  induction m generalizing lo with
  | nil =>
    by_cases hv : v = emptyByte
    · simp [Memory.write, hv, Memory.wfFrom]
    · simp only [Memory.write, if_neg hv, Memory.wfFrom_cons]
      exact ⟨hlo, ha, hv, rfl⟩
  | cons c m ih =>
    obtain ⟨b, w⟩ := c
    have hc := Memory.wfFrom_cons.1 h
    simp only [Memory.write]
    split_ifs with h1 hv h2 hv
    · exact h
    · rw [Memory.wfFrom_cons, Memory.wfFrom_cons]
      exact ⟨hlo, ha, hv, by omega, hc.2⟩
    · exact Memory.wfFrom_mono (by omega) hc.2.2.2
    · rw [Memory.wfFrom_cons]
      exact ⟨hlo, ha, hv, h2 ▸ hc.2.2.2⟩
    · rw [Memory.wfFrom_cons]
      exact ⟨hc.1, hc.2.1, hc.2.2.1, ih hc.2.2.2 (by omega)⟩

/-- A write inside the array keeps the canonical form. -/
theorem Memory.wf_write {a : Nat} {m : Memory} (v : Byte) (h : Memory.wf m = true) (ha : a < memSize) :
    Memory.wf (Memory.write m a v) = true :=
  Memory.wfFrom_write v h (Nat.zero_le a) ha

/-- A write leaves every other address alone, in any list. -/
theorem Memory.read_write_other (m : Memory) {a b : Nat} (v : Byte) (h : b ≠ a) :
    Memory.read (Memory.write m a v) b = Memory.read m b := by
  induction m with
  | nil => by_cases hv : v = emptyByte <;> simp [Memory.write, Memory.read, hv, h]
  | cons c m ih =>
    obtain ⟨d, w⟩ := c
    simp only [Memory.write]
    split_ifs with h1 hv h2 hv
    · rfl
    · simp [Memory.read, h]
    · subst h2; simp [Memory.read, h]
    · subst h2; simp [Memory.read, h]
    · simp only [Memory.read, ih]

theorem Memory.read_write_same_from {lo : Nat} {m : Memory} (a : Nat) (v : Byte) (h : Memory.wfFrom lo m = true) :
    Memory.read (Memory.write m a v) a = v := by
  induction m generalizing lo with
  | nil => by_cases hv : v = emptyByte <;> simp [Memory.write, Memory.read, hv]
  | cons c m ih =>
    obtain ⟨d, w⟩ := c
    have hc := Memory.wfFrom_cons.1 h
    simp only [Memory.write]
    split_ifs with h1 hv h2 hv
    · rw [hv]; exact Memory.read_below (Memory.wfFrom_cons.2 ⟨Nat.le_refl d, hc.2⟩) h1
    · simp [Memory.read]
    · rw [hv]; exact Memory.read_below hc.2.2.2 (by omega)
    · simp [Memory.read]
    · have : a ≠ d := h2
      simp only [Memory.read, if_neg this]
      exact ih hc.2.2.2

/-- In a canonical list a write is what the next read gives. -/
theorem Memory.read_write_same {m : Memory} (a : Nat) (v : Byte) (h : Memory.wf m = true) :
    Memory.read (Memory.write m a v) a = v :=
  Memory.read_write_same_from a v h

end Sys2Proof.Machine
end

