-- ==== Sys2Proof/Laws/State.lean ====
section
/-! SUPPORT. One lemma per field per update, all true by rfl, and what the register accessors read after each update. -/

namespace Sys2Proof.Machine

/-! ### setReg -/

@[simp] theorem State.setReg_x (s : State) (i : Fin 8) (v : Byte) : (s.setReg i v).x = s.x.set i v := rfl
@[simp] theorem State.setReg_pc (s : State) (i : Fin 8) (v : Byte) : (s.setReg i v).pc = s.pc := rfl
@[simp] theorem State.setReg_fl (s : State) (i : Fin 8) (v : Byte) : (s.setReg i v).fl = s.fl := rfl
@[simp] theorem State.setReg_mem (s : State) (i : Fin 8) (v : Byte) : (s.setReg i v).mem = s.mem := rfl
@[simp] theorem State.setReg_st (s : State) (i : Fin 8) (v : Byte) : (s.setReg i v).st = s.st := rfl
@[simp] theorem State.setReg_errCause (s : State) (i : Fin 8) (v : Byte) : (s.setReg i v).errCause = s.errCause := rfl
@[simp] theorem State.setReg_errPc (s : State) (i : Fin 8) (v : Byte) : (s.setReg i v).errPc = s.errPc := rfl
@[simp] theorem State.setReg_errInfo (s : State) (i : Fin 8) (v : Byte) : (s.setReg i v).errInfo = s.errInfo := rfl
@[simp] theorem State.setReg_out (s : State) (i : Fin 8) (v : Byte) : (s.setReg i v).out = s.out := rfl
@[simp] theorem State.setReg_outPort (s : State) (i : Fin 8) (v : Byte) : (s.setReg i v).outPort = s.outPort := rfl
@[simp] theorem State.setReg_inputs (s : State) (i : Fin 8) (v : Byte) : (s.setReg i v).inputs = s.inputs := rfl

/-! ### setPc -/

@[simp] theorem State.setPc_x (s : State) (v : Word9) : (s.setPc v).x = s.x := rfl
@[simp] theorem State.setPc_pc (s : State) (v : Word9) : (s.setPc v).pc = v := rfl
@[simp] theorem State.setPc_fl (s : State) (v : Word9) : (s.setPc v).fl = s.fl := rfl
@[simp] theorem State.setPc_mem (s : State) (v : Word9) : (s.setPc v).mem = s.mem := rfl
@[simp] theorem State.setPc_st (s : State) (v : Word9) : (s.setPc v).st = s.st := rfl
@[simp] theorem State.setPc_errCause (s : State) (v : Word9) : (s.setPc v).errCause = s.errCause := rfl
@[simp] theorem State.setPc_errPc (s : State) (v : Word9) : (s.setPc v).errPc = s.errPc := rfl
@[simp] theorem State.setPc_errInfo (s : State) (v : Word9) : (s.setPc v).errInfo = s.errInfo := rfl
@[simp] theorem State.setPc_out (s : State) (v : Word9) : (s.setPc v).out = s.out := rfl
@[simp] theorem State.setPc_outPort (s : State) (v : Word9) : (s.setPc v).outPort = s.outPort := rfl
@[simp] theorem State.setPc_inputs (s : State) (v : Word9) : (s.setPc v).inputs = s.inputs := rfl
@[simp] theorem State.setPc_reg (s : State) (v : Word9) (j : Fin 8) : (s.setPc v).reg j = s.reg j := rfl
@[simp] theorem State.setPc_sp (s : State) (v : Word9) : (s.setPc v).sp = s.sp := rfl

/-! ### setFl -/

@[simp] theorem State.setFl_x (s : State) (v : Byte) : (s.setFl v).x = s.x := rfl
@[simp] theorem State.setFl_pc (s : State) (v : Byte) : (s.setFl v).pc = s.pc := rfl
@[simp] theorem State.setFl_fl (s : State) (v : Byte) : (s.setFl v).fl = v := rfl
@[simp] theorem State.setFl_mem (s : State) (v : Byte) : (s.setFl v).mem = s.mem := rfl
@[simp] theorem State.setFl_st (s : State) (v : Byte) : (s.setFl v).st = s.st := rfl
@[simp] theorem State.setFl_errCause (s : State) (v : Byte) : (s.setFl v).errCause = s.errCause := rfl
@[simp] theorem State.setFl_errPc (s : State) (v : Byte) : (s.setFl v).errPc = s.errPc := rfl
@[simp] theorem State.setFl_errInfo (s : State) (v : Byte) : (s.setFl v).errInfo = s.errInfo := rfl
@[simp] theorem State.setFl_out (s : State) (v : Byte) : (s.setFl v).out = s.out := rfl
@[simp] theorem State.setFl_outPort (s : State) (v : Byte) : (s.setFl v).outPort = s.outPort := rfl
@[simp] theorem State.setFl_inputs (s : State) (v : Byte) : (s.setFl v).inputs = s.inputs := rfl
@[simp] theorem State.setFl_reg (s : State) (v : Byte) (j : Fin 8) : (s.setFl v).reg j = s.reg j := rfl
@[simp] theorem State.setFl_sp (s : State) (v : Byte) : (s.setFl v).sp = s.sp := rfl

/-! ### setMem -/

@[simp] theorem State.setMem_x (s : State) (a : Nat) (v : Byte) : (s.setMem a v).x = s.x := rfl
@[simp] theorem State.setMem_pc (s : State) (a : Nat) (v : Byte) : (s.setMem a v).pc = s.pc := rfl
@[simp] theorem State.setMem_fl (s : State) (a : Nat) (v : Byte) : (s.setMem a v).fl = s.fl := rfl
@[simp] theorem State.setMem_mem (s : State) (a : Nat) (v : Byte) : (s.setMem a v).mem = Memory.write s.mem a v := rfl
@[simp] theorem State.setMem_st (s : State) (a : Nat) (v : Byte) : (s.setMem a v).st = s.st := rfl
@[simp] theorem State.setMem_errCause (s : State) (a : Nat) (v : Byte) : (s.setMem a v).errCause = s.errCause := rfl
@[simp] theorem State.setMem_errPc (s : State) (a : Nat) (v : Byte) : (s.setMem a v).errPc = s.errPc := rfl
@[simp] theorem State.setMem_errInfo (s : State) (a : Nat) (v : Byte) : (s.setMem a v).errInfo = s.errInfo := rfl
@[simp] theorem State.setMem_out (s : State) (a : Nat) (v : Byte) : (s.setMem a v).out = s.out := rfl
@[simp] theorem State.setMem_outPort (s : State) (a : Nat) (v : Byte) : (s.setMem a v).outPort = s.outPort := rfl
@[simp] theorem State.setMem_inputs (s : State) (a : Nat) (v : Byte) : (s.setMem a v).inputs = s.inputs := rfl
@[simp] theorem State.setMem_reg (s : State) (a : Nat) (v : Byte) (j : Fin 8) : (s.setMem a v).reg j = s.reg j := rfl
@[simp] theorem State.setMem_sp (s : State) (a : Nat) (v : Byte) : (s.setMem a v).sp = s.sp := rfl

/-! ### setSt -/

@[simp] theorem State.setSt_x (s : State) (v : RunState) : (s.setSt v).x = s.x := rfl
@[simp] theorem State.setSt_pc (s : State) (v : RunState) : (s.setSt v).pc = s.pc := rfl
@[simp] theorem State.setSt_fl (s : State) (v : RunState) : (s.setSt v).fl = s.fl := rfl
@[simp] theorem State.setSt_mem (s : State) (v : RunState) : (s.setSt v).mem = s.mem := rfl
@[simp] theorem State.setSt_st (s : State) (v : RunState) : (s.setSt v).st = v := rfl
@[simp] theorem State.setSt_errCause (s : State) (v : RunState) : (s.setSt v).errCause = s.errCause := rfl
@[simp] theorem State.setSt_errPc (s : State) (v : RunState) : (s.setSt v).errPc = s.errPc := rfl
@[simp] theorem State.setSt_errInfo (s : State) (v : RunState) : (s.setSt v).errInfo = s.errInfo := rfl
@[simp] theorem State.setSt_out (s : State) (v : RunState) : (s.setSt v).out = s.out := rfl
@[simp] theorem State.setSt_outPort (s : State) (v : RunState) : (s.setSt v).outPort = s.outPort := rfl
@[simp] theorem State.setSt_inputs (s : State) (v : RunState) : (s.setSt v).inputs = s.inputs := rfl
@[simp] theorem State.setSt_reg (s : State) (v : RunState) (j : Fin 8) : (s.setSt v).reg j = s.reg j := rfl
@[simp] theorem State.setSt_sp (s : State) (v : RunState) : (s.setSt v).sp = s.sp := rfl

/-! ### output -/

@[simp] theorem State.output_x (s : State) (v : Byte) : (s.output v).x = s.x := rfl
@[simp] theorem State.output_pc (s : State) (v : Byte) : (s.output v).pc = s.pc := rfl
@[simp] theorem State.output_fl (s : State) (v : Byte) : (s.output v).fl = s.fl := rfl
@[simp] theorem State.output_mem (s : State) (v : Byte) : (s.output v).mem = s.mem := rfl
@[simp] theorem State.output_st (s : State) (v : Byte) : (s.output v).st = s.st := rfl
@[simp] theorem State.output_errCause (s : State) (v : Byte) : (s.output v).errCause = s.errCause := rfl
@[simp] theorem State.output_errPc (s : State) (v : Byte) : (s.output v).errPc = s.errPc := rfl
@[simp] theorem State.output_errInfo (s : State) (v : Byte) : (s.output v).errInfo = s.errInfo := rfl
@[simp] theorem State.output_out (s : State) (v : Byte) : (s.output v).out = s.out ++ [v] := rfl
@[simp] theorem State.output_outPort (s : State) (v : Byte) : (s.output v).outPort = some v := rfl
@[simp] theorem State.output_inputs (s : State) (v : Byte) : (s.output v).inputs = s.inputs := rfl
@[simp] theorem State.output_reg (s : State) (v : Byte) (j : Fin 8) : (s.output v).reg j = s.reg j := rfl
@[simp] theorem State.output_sp (s : State) (v : Byte) : (s.output v).sp = s.sp := rfl

/-! ### raise -/

@[simp] theorem State.raise_x (s : State) (f : CoreFault) : (s.raise f).x = s.x := rfl
@[simp] theorem State.raise_pc (s : State) (f : CoreFault) : (s.raise f).pc = s.pc := rfl
@[simp] theorem State.raise_fl (s : State) (f : CoreFault) : (s.raise f).fl = s.fl := rfl
@[simp] theorem State.raise_mem (s : State) (f : CoreFault) : (s.raise f).mem = s.mem := rfl
@[simp] theorem State.raise_st (s : State) (f : CoreFault) : (s.raise f).st = .error := rfl
@[simp] theorem State.raise_errCause (s : State) (f : CoreFault) : (s.raise f).errCause = f.code := rfl
@[simp] theorem State.raise_errPc (s : State) (f : CoreFault) : (s.raise f).errPc = s.pc := rfl
@[simp] theorem State.raise_errInfo (s : State) (f : CoreFault) : (s.raise f).errInfo = f.info := rfl
@[simp] theorem State.raise_out (s : State) (f : CoreFault) : (s.raise f).out = s.out := rfl
@[simp] theorem State.raise_outPort (s : State) (f : CoreFault) : (s.raise f).outPort = s.outPort := rfl
@[simp] theorem State.raise_inputs (s : State) (f : CoreFault) : (s.raise f).inputs = s.inputs := rfl
@[simp] theorem State.raise_reg (s : State) (f : CoreFault) (j : Fin 8) : (s.raise f).reg j = s.reg j := rfl
@[simp] theorem State.raise_sp (s : State) (f : CoreFault) : (s.raise f).sp = s.sp := rfl

/-! ### decSp -/

@[simp] theorem State.decSp_x (s : State) : (s.decSp).x = s.x.set spIndex (s.sp - 1) := rfl
@[simp] theorem State.decSp_pc (s : State) : (s.decSp).pc = s.pc := rfl
@[simp] theorem State.decSp_fl (s : State) : (s.decSp).fl = s.fl := rfl
@[simp] theorem State.decSp_mem (s : State) : (s.decSp).mem = s.mem := rfl
@[simp] theorem State.decSp_st (s : State) : (s.decSp).st = s.st := rfl
@[simp] theorem State.decSp_errCause (s : State) : (s.decSp).errCause = s.errCause := rfl
@[simp] theorem State.decSp_errPc (s : State) : (s.decSp).errPc = s.errPc := rfl
@[simp] theorem State.decSp_errInfo (s : State) : (s.decSp).errInfo = s.errInfo := rfl
@[simp] theorem State.decSp_out (s : State) : (s.decSp).out = s.out := rfl
@[simp] theorem State.decSp_outPort (s : State) : (s.decSp).outPort = s.outPort := rfl
@[simp] theorem State.decSp_inputs (s : State) : (s.decSp).inputs = s.inputs := rfl

/-! ### incSp -/

@[simp] theorem State.incSp_x (s : State) : (s.incSp).x = s.x.set spIndex (s.sp + 1) := rfl
@[simp] theorem State.incSp_pc (s : State) : (s.incSp).pc = s.pc := rfl
@[simp] theorem State.incSp_fl (s : State) : (s.incSp).fl = s.fl := rfl
@[simp] theorem State.incSp_mem (s : State) : (s.incSp).mem = s.mem := rfl
@[simp] theorem State.incSp_st (s : State) : (s.incSp).st = s.st := rfl
@[simp] theorem State.incSp_errCause (s : State) : (s.incSp).errCause = s.errCause := rfl
@[simp] theorem State.incSp_errPc (s : State) : (s.incSp).errPc = s.errPc := rfl
@[simp] theorem State.incSp_errInfo (s : State) : (s.incSp).errInfo = s.errInfo := rfl
@[simp] theorem State.incSp_out (s : State) : (s.incSp).out = s.out := rfl
@[simp] theorem State.incSp_outPort (s : State) : (s.incSp).outPort = s.outPort := rfl
@[simp] theorem State.incSp_inputs (s : State) : (s.incSp).inputs = s.inputs := rfl

/-! ### advance -/

@[simp] theorem State.advance_x (s : State) (n : Nat) : (s.advance n).x = s.x := rfl
@[simp] theorem State.advance_pc (s : State) (n : Nat) : (s.advance n).pc = s.pc + BitVec.ofNat 9 (1 + n) := rfl
@[simp] theorem State.advance_fl (s : State) (n : Nat) : (s.advance n).fl = s.fl := rfl
@[simp] theorem State.advance_mem (s : State) (n : Nat) : (s.advance n).mem = s.mem := rfl
@[simp] theorem State.advance_st (s : State) (n : Nat) : (s.advance n).st = s.st := rfl
@[simp] theorem State.advance_errCause (s : State) (n : Nat) : (s.advance n).errCause = s.errCause := rfl
@[simp] theorem State.advance_errPc (s : State) (n : Nat) : (s.advance n).errPc = s.errPc := rfl
@[simp] theorem State.advance_errInfo (s : State) (n : Nat) : (s.advance n).errInfo = s.errInfo := rfl
@[simp] theorem State.advance_out (s : State) (n : Nat) : (s.advance n).out = s.out := rfl
@[simp] theorem State.advance_outPort (s : State) (n : Nat) : (s.advance n).outPort = s.outPort := rfl
@[simp] theorem State.advance_inputs (s : State) (n : Nat) : (s.advance n).inputs = s.inputs := rfl
@[simp] theorem State.advance_reg (s : State) (n : Nat) (j : Fin 8) : (s.advance n).reg j = s.reg j := rfl
@[simp] theorem State.advance_sp (s : State) (n : Nat) : (s.advance n).sp = s.sp := rfl

/-! ### redirect -/

@[simp] theorem State.redirect_x (s : State) (v : Byte) : (s.redirect v).x = s.x := rfl
@[simp] theorem State.redirect_pc (s : State) (v : Byte) : (s.redirect v).pc = v.zeroExtend 9 := rfl
@[simp] theorem State.redirect_fl (s : State) (v : Byte) : (s.redirect v).fl = s.fl := rfl
@[simp] theorem State.redirect_mem (s : State) (v : Byte) : (s.redirect v).mem = s.mem := rfl
@[simp] theorem State.redirect_st (s : State) (v : Byte) : (s.redirect v).st = s.st := rfl
@[simp] theorem State.redirect_errCause (s : State) (v : Byte) : (s.redirect v).errCause = s.errCause := rfl
@[simp] theorem State.redirect_errPc (s : State) (v : Byte) : (s.redirect v).errPc = s.errPc := rfl
@[simp] theorem State.redirect_errInfo (s : State) (v : Byte) : (s.redirect v).errInfo = s.errInfo := rfl
@[simp] theorem State.redirect_out (s : State) (v : Byte) : (s.redirect v).out = s.out := rfl
@[simp] theorem State.redirect_outPort (s : State) (v : Byte) : (s.redirect v).outPort = s.outPort := rfl
@[simp] theorem State.redirect_inputs (s : State) (v : Byte) : (s.redirect v).inputs = s.inputs := rfl
@[simp] theorem State.redirect_reg (s : State) (v : Byte) (j : Fin 8) : (s.redirect v).reg j = s.reg j := rfl
@[simp] theorem State.redirect_sp (s : State) (v : Byte) : (s.redirect v).sp = s.sp := rfl

/-! ### beginStep -/

@[simp] theorem State.beginStep_x (s : State) : (s.beginStep).x = s.x := rfl
@[simp] theorem State.beginStep_pc (s : State) : (s.beginStep).pc = s.pc := rfl
@[simp] theorem State.beginStep_fl (s : State) : (s.beginStep).fl = s.fl := rfl
@[simp] theorem State.beginStep_mem (s : State) : (s.beginStep).mem = s.mem := rfl
@[simp] theorem State.beginStep_st (s : State) : (s.beginStep).st = s.st := rfl
@[simp] theorem State.beginStep_errCause (s : State) : (s.beginStep).errCause = s.errCause := rfl
@[simp] theorem State.beginStep_errPc (s : State) : (s.beginStep).errPc = s.errPc := rfl
@[simp] theorem State.beginStep_errInfo (s : State) : (s.beginStep).errInfo = s.errInfo := rfl
@[simp] theorem State.beginStep_out (s : State) : (s.beginStep).out = s.out := rfl
@[simp] theorem State.beginStep_outPort (s : State) : (s.beginStep).outPort = none := rfl
@[simp] theorem State.beginStep_inputs (s : State) : (s.beginStep).inputs = s.inputs.tail := rfl
@[simp] theorem State.beginStep_reg (s : State) (j : Fin 8) : (s.beginStep).reg j = s.reg j := rfl
@[simp] theorem State.beginStep_sp (s : State) : (s.beginStep).sp = s.sp := rfl

/-! ### hostReset -/

@[simp] theorem State.hostReset_x (s : State) : (s.hostReset).x = State.reset.x := rfl
@[simp] theorem State.hostReset_pc (s : State) : (s.hostReset).pc = State.reset.pc := rfl
@[simp] theorem State.hostReset_fl (s : State) : (s.hostReset).fl = State.reset.fl := rfl
@[simp] theorem State.hostReset_mem (s : State) : (s.hostReset).mem = State.reset.mem := rfl
@[simp] theorem State.hostReset_st (s : State) : (s.hostReset).st = State.reset.st := rfl
@[simp] theorem State.hostReset_errCause (s : State) : (s.hostReset).errCause = State.reset.errCause := rfl
@[simp] theorem State.hostReset_errPc (s : State) : (s.hostReset).errPc = State.reset.errPc := rfl
@[simp] theorem State.hostReset_errInfo (s : State) : (s.hostReset).errInfo = State.reset.errInfo := rfl
@[simp] theorem State.hostReset_out (s : State) : (s.hostReset).out = State.reset.out := rfl
@[simp] theorem State.hostReset_outPort (s : State) : (s.hostReset).outPort = State.reset.outPort := rfl
@[simp] theorem State.hostReset_inputs (s : State) : (s.hostReset).inputs = s.inputs := rfl

/-! ### Registers after a register write -/

/-- Reading the register vector after setting one register, as statements over whole states need it. -/
theorem getElem_set_fin (x : Vector Byte 8) (i j : Fin 8) (v : Byte) : (x.set i v)[j] = if j = i then v else x[j] := by
  by_cases h : j = i
  · simp [h]
  · have h' : i.val ≠ j.val := fun e => h (Fin.ext e.symm)
    simp [h, h']

theorem State.reg_setReg (s : State) (i j : Fin 8) (v : Byte) :
    (s.setReg i v).reg j = if j = i then v else s.reg j := getElem_set_fin s.x i j v

@[simp] theorem State.reg_setReg_same (s : State) (i : Fin 8) (v : Byte) : (s.setReg i v).reg i = v := by
  simp [State.reg_setReg]

theorem State.reg_setReg_other (s : State) {i j : Fin 8} (v : Byte) (h : j ≠ i) : (s.setReg i v).reg j = s.reg j := by
  simp [State.reg_setReg, h]

@[simp] theorem State.decSp_sp (s : State) : s.decSp.sp = s.sp - 1 := State.reg_setReg_same s spIndex _

@[simp] theorem State.incSp_sp (s : State) : s.incSp.sp = s.sp + 1 := State.reg_setReg_same s spIndex _

theorem State.decSp_reg (s : State) (j : Fin 8) : s.decSp.reg j = if j = spIndex then s.sp - 1 else s.reg j :=
  State.reg_setReg s spIndex j _

theorem State.incSp_reg (s : State) (j : Fin 8) : s.incSp.reg j = if j = spIndex then s.sp + 1 else s.reg j :=
  State.reg_setReg s spIndex j _

end Sys2Proof.Machine
end

