-- ==== Sys2Proof/Laws/Ops.lean ====
section
/-! SUPPORT. One spec lemma per shared operation: everything it can answer. -/

namespace Sys2Proof.Machine

/-! ### attempt -/

@[simp] theorem State.attempt_ok (s t : State) : s.attempt (.ok t) = .next t := rfl

@[simp] theorem State.attempt_error (s : State) (f : CoreFault) : s.attempt (.error f) = .next (s.raise f) := rfl

/-- Either the handler completed, or nothing but fault entry happened. -/
theorem State.attempt_cases {s t : State} {h : Except CoreFault State} (e : s.attempt h = .next t) :
    h = .ok t ∨ ∃ f, h = .error f ∧ t = s.raise f := by
  cases h with
  | ok u => cases e; exact .inl rfl
  | error f => cases e; exact .inr ⟨f, rfl, rfl⟩

/-! ### Operands -/

theorem regIndex_ok {r : Byte} (h : r.toNat < 8) : regIndex r = .ok ⟨r.toNat, h⟩ := by simp [regIndex, h]

theorem regIndex_error {r : Byte} (h : ¬ r.toNat < 8) : regIndex r = .error (.outOfBoundsReg r) := by simp [regIndex, h]

theorem regIndex_cases (r : Byte) :
    (∃ h : r.toNat < 8, regIndex r = .ok ⟨r.toNat, h⟩) ∨ (8 ≤ r.toNat ∧ regIndex r = .error (.outOfBoundsReg r)) := by
  by_cases h : r.toNat < 8
  · exact .inl ⟨h, regIndex_ok h⟩
  · exact .inr ⟨by omega, regIndex_error h⟩

/-! ### Memory accesses; a byte address is always inside the array (R32) -/

theorem byte_lt_memSize (a : Byte) : a.toNat < memSize := a.isLt

@[simp] theorem State.memRead_byte (s : State) (a : Byte) : s.memRead a.toNat = .ok (Memory.read s.mem a.toNat) := by
  simp [State.memRead, byte_lt_memSize a]

@[simp] theorem State.memWrite_byte (s : State) (a : Byte) (v : Byte) : s.memWrite a.toNat v = .ok (s.setMem a.toNat v) := by
  simp [State.memWrite, byte_lt_memSize a]

theorem State.memRead_outside (s : State) {a : Nat} (h : memSize ≤ a) :
    s.memRead a = .error (.outOfBoundsMem (BitVec.ofNat 9 a)) := by
  simp [State.memRead, Nat.not_lt.2 h]

theorem State.memWrite_outside (s : State) {a : Nat} (v : Byte) (h : memSize ≤ a) :
    s.memWrite a v = .error (.outOfBoundsMem (BitVec.ofNat 9 a)) := by
  simp [State.memWrite, Nat.not_lt.2 h]

/-! ### Stack checks -/

theorem State.pushCheck_ok {s : State} (h : s.sp ≠ 0) : s.pushCheck = .ok () := by simp only [State.pushCheck, if_neg h]

theorem State.pushCheck_error {s : State} (h : s.sp = 0) : s.pushCheck = .error (.outOfBoundsMem 0x1FF) := by
  simp [State.pushCheck, h]

theorem State.popCheck_ok {s : State} (h : s.sp.toNat < 0xF4) : s.popCheck = .ok () := by
  have : ¬ spReset ≤ s.sp := by rw [BitVec.le_def]; exact Nat.not_le.2 h
  simp only [State.popCheck, if_neg this]

theorem State.popCheck_error {s : State} (h : 0xF4 ≤ s.sp.toNat) : s.popCheck = .error (.stackUnderflow s.sp) := by
  have : spReset ≤ s.sp := by rw [BitVec.le_def]; exact h
  simp only [State.popCheck, if_pos this]

/-! ### Flags -/

/-- The three outcomes of a comparison, as FL holds them. -/
theorem flOfLge_aluCmp (p q : Byte) :
    (p.toNat = q.toNat ∧ flOfLge (aluCmp p q) = 0x01) ∨ (p.toNat < q.toNat ∧ flOfLge (aluCmp p q) = 0x04) ∨
      (q.toNat < p.toNat ∧ flOfLge (aluCmp p q) = 0x02) := by
  rcases Nat.lt_trichotomy p.toNat q.toNat with h | h | h
  · exact .inr (.inl ⟨h, by simp [aluCmp, flOfLge, h, Nat.ne_of_lt h]⟩)
  · exact .inl ⟨h, by simp [aluCmp, flOfLge, h]⟩
  · exact .inr (.inr ⟨h, by simp [aluCmp, flOfLge, Nat.ne_of_gt h, Nat.not_lt.2 (Nat.le_of_lt h)]⟩)

/-! ### Fetch -/

theorem State.fetchByte_some {s : State} {k : Nat} (h : s.pc.toNat + k < memSize) :
    s.fetchByte k = some (Memory.read s.mem (s.pc.toNat + k)) := by
  simp [State.fetchByte, Memory.read?, h]

theorem State.fetchByte_none {s : State} {k : Nat} (h : memSize ≤ s.pc.toNat + k) : s.fetchByte k = none := by
  simp [State.fetchByte, Memory.read?, Nat.not_lt.2 h]

end Sys2Proof.Machine
end

