-- ==== Sys2Proof/Laws/Exec.lean ====
section
/-! SUPPORT. What an instruction, a fetch and a step boundary can do, said once: `exec_cases`, `State.fetch_error_cases`,
`stepWith_cases`. Proofs over all instructions split on these instead of unfolding the meanings. -/

namespace Sys2Proof.Machine

/-! ### Instructions -/

/-- `Completes i s t`: the instruction passes every check in `s` and leaves `t`. -/
inductive Completes : Instr → State → State → Prop
  | halt {s : State} : Completes .halt s (s.setSt .halted)
  | loadImmediate {s : State} {r v : Byte} {i : Fin 8} (hr : regIndex r = .ok i) :
      Completes (.loadImmediate r v) s ((s.setReg i v).advance 2)
  | push {s : State} {r : Byte} {i : Fin 8} (hr : regIndex r = .ok i) (hs : s.sp ≠ 0) :
      Completes (.push r) s ((s.decSp.setMem s.decSp.sp.toNat (s.decSp.reg i)).advance 1)
  | pop {s : State} {r : Byte} {i : Fin 8} (hr : regIndex r = .ok i) (hs : s.sp.toNat < 0xF4) :
      Completes (.pop r) s ((s.setReg i (Memory.read s.mem s.sp.toNat)).incSp.advance 1)
  | multiply {s : State} {a b : Byte} {i j : Fin 8} (ha : regIndex a = .ok i) (hb : regIndex b = .ok j) :
      Completes (.multiply a b) s ((s.setReg i (aluMul (s.reg i) (s.reg j))).advance 2)
  | add {s : State} {a b : Byte} {i j : Fin 8} (ha : regIndex a = .ok i) (hb : regIndex b = .ok j) :
      Completes (.add a b) s ((s.setReg i (aluAdd (s.reg i) (s.reg j))).advance 2)
  | print {s : State} {r : Byte} {i : Fin 8} (hr : regIndex r = .ok i) :
      Completes (.print r) s ((s.output (s.reg i)).advance 1)
  | call {s : State} {r : Byte} {i : Fin 8} (hr : regIndex r = .ok i) (hp : s.pc.toNat + 2 ≤ 255) (hs : s.sp ≠ 0) :
      Completes (.call r) s
        ((s.decSp.setMem s.decSp.sp.toNat (BitVec.ofNat 8 (s.pc.toNat + 2))).redirect (s.decSp.reg i))
  | ret {s : State} (hs : s.sp.toNat < 0xF4) : Completes .ret s ((s.redirect (Memory.read s.mem s.sp.toNat)).incSp)
  | compare {s : State} {a b : Byte} {i j : Fin 8} (ha : regIndex a = .ok i) (hb : regIndex b = .ok j) :
      Completes (.compare a b) s ((s.setFl (flOfLge (aluCmp (s.reg i) (s.reg j)))).advance 2)
  | jump {s : State} {r : Byte} {i : Fin 8} (hr : regIndex r = .ok i) : Completes (.jump r) s (s.redirect (s.reg i))
  | jumpIfNotEqual {s : State} {r : Byte} {i : Fin 8} (hr : regIndex r = .ok i) :
      Completes (.jumpIfNotEqual r) s (if flagE s.fl then s.advance 1 else s.redirect (s.reg i))
  | jumpIfEqual {s : State} {r : Byte} {i : Fin 8} (hr : regIndex r = .ok i) :
      Completes (.jumpIfEqual r) s (if flagE s.fl then s.redirect (s.reg i) else s.advance 1)

/-- `Raises i s f`: the first check that fails in `s` raises `f`. -/
inductive Raises : Instr → State → CoreFault → Prop
  | badIndex {i : Instr} {s : State} {r : Byte} (hr : 7 < r.toNat) (hw : i.wellFormed = false)
      (hf : (i.operandBytes.find? fun b => decide (7 < b.toNat)) = some r) : Raises i s (.outOfBoundsReg r)
  | push {s : State} {r : Byte} {i : Fin 8} (hr : regIndex r = .ok i) (hs : s.sp = 0) :
      Raises (.push r) s (.outOfBoundsMem 0x1FF)
  | pop {s : State} {r : Byte} {i : Fin 8} (hr : regIndex r = .ok i) (hs : 0xF4 ≤ s.sp.toNat) :
      Raises (.pop r) s (.stackUnderflow s.sp)
  | callReturn {s : State} {r : Byte} {i : Fin 8} (hr : regIndex r = .ok i) (hp : 255 < s.pc.toNat + 2) :
      Raises (.call r) s (.outOfBoundsMem (BitVec.ofNat 9 (s.pc.toNat + 2)))
  | callPush {s : State} {r : Byte} {i : Fin 8} (hr : regIndex r = .ok i) (hp : s.pc.toNat + 2 ≤ 255) (hs : s.sp = 0) :
      Raises (.call r) s (.outOfBoundsMem 0x1FF)
  | ret {s : State} (hs : 0xF4 ≤ s.sp.toNat) : Raises .ret s (.stackUnderflow s.sp)

theorem legalReg_of_index {r : Byte} {i : Fin 8} (h : regIndex r = .ok i) : legalReg r = true ∧ ¬ 7 < r.toNat := by
  rcases regIndex_cases r with ⟨hr, _⟩ | ⟨_, e⟩
  · exact ⟨by simp only [legalReg, decide_eq_true_eq]; omega, by omega⟩
  · rw [e] at h; cases h

theorem Completes.wellFormed {i : Instr} {s t : State} (h : Completes i s t) : i.wellFormed = true := by
  cases h <;> simp_all [Instr.wellFormed, legalReg_of_index]

/-- A completed instruction leaves a Running core Running, but for HALT. -/
theorem Completes.st {i : Instr} {s t : State} (h : Completes i s t) (hs : s.st = .running) :
    t.st = if i = .halt then .halted else .running := by
  cases h <;> simp [hs] <;> split_ifs <;> simp [hs]

/-- A register byte either names a register or is above 7. -/
theorem index_or_big (r : Byte) : (∃ i, regIndex r = .ok i) ∨ (7 < r.toNat ∧ regIndex r = .error (.outOfBoundsReg r)) := by
  rcases regIndex_cases r with ⟨h, e⟩ | ⟨h, e⟩
  · exact .inl ⟨_, e⟩
  · exact .inr ⟨by omega, e⟩

/-- Everything `exec` can do: it completes, or it raises the first fault; there is always a next state. -/
theorem exec_cases (i : Instr) (s : State) :
    (∃ t, Completes i s t ∧ exec i s = .next t) ∨ (∃ f, Raises i s f ∧ exec i s = .next (s.raise f)) := by
  cases i with
  | halt => exact .inl ⟨_, .halt, rfl⟩
  | loadImmediate r v =>
    rcases index_or_big r with ⟨i, hr⟩ | ⟨h, hr⟩
    · exact .inl ⟨_, .loadImmediate hr, by simp only [exec, execLoadImmediate, hr]; rfl⟩
    · exact .inr ⟨_, .badIndex h (by simp [Instr.wellFormed, legalReg, h]) (by simp [Instr.operandBytes, h]),
        by simp only [exec, execLoadImmediate, hr]; rfl⟩
  | push r =>
    rcases index_or_big r with ⟨i, hr⟩ | ⟨h, hr⟩
    · by_cases hs : s.sp = 0
      · exact .inr ⟨_, .push hr hs, by simp only [exec, execPush, hr, State.pushCheck_error hs]; rfl⟩
      · exact .inl ⟨_, .push hr hs, by simp only [exec, execPush, hr, State.pushCheck_ok hs, State.memWrite_byte]; rfl⟩
    · exact .inr ⟨_, .badIndex h (by simp [Instr.wellFormed, legalReg, h]) (by simp [Instr.operandBytes, h]),
        by simp only [exec, execPush, hr]; rfl⟩
  | pop r =>
    rcases index_or_big r with ⟨i, hr⟩ | ⟨h, hr⟩
    · by_cases hs : s.sp.toNat < 0xF4
      · exact .inl ⟨_, .pop hr hs, by simp only [exec, execPop, hr, State.popCheck_ok hs, State.memRead_byte]; rfl⟩
      · exact .inr ⟨_, .pop hr (Nat.not_lt.1 hs),
          by simp only [exec, execPop, hr, State.popCheck_error (Nat.not_lt.1 hs)]; rfl⟩
    · exact .inr ⟨_, .badIndex h (by simp [Instr.wellFormed, legalReg, h]) (by simp [Instr.operandBytes, h]),
        by simp only [exec, execPop, hr]; rfl⟩
  | multiply a b =>
    rcases index_or_big a with ⟨i, ha⟩ | ⟨h, ha⟩
    · rcases index_or_big b with ⟨j, hb⟩ | ⟨h, hb⟩
      · exact .inl ⟨_, .multiply ha hb, by simp only [exec, execMultiply, ha, hb]; rfl⟩
      · have := (legalReg_of_index ha).2
        exact .inr ⟨_, .badIndex h (by simp [Instr.wellFormed, legalReg, h]) (by simp [Instr.operandBytes, h, this]),
          by simp only [exec, execMultiply, ha, hb]; rfl⟩
    · exact .inr ⟨_, .badIndex h (by simp [Instr.wellFormed, legalReg, h]) (by simp [Instr.operandBytes, h]),
        by simp only [exec, execMultiply, ha]; rfl⟩
  | add a b =>
    rcases index_or_big a with ⟨i, ha⟩ | ⟨h, ha⟩
    · rcases index_or_big b with ⟨j, hb⟩ | ⟨h, hb⟩
      · exact .inl ⟨_, .add ha hb, by simp only [exec, execAdd, ha, hb]; rfl⟩
      · have := (legalReg_of_index ha).2
        exact .inr ⟨_, .badIndex h (by simp [Instr.wellFormed, legalReg, h]) (by simp [Instr.operandBytes, h, this]),
          by simp only [exec, execAdd, ha, hb]; rfl⟩
    · exact .inr ⟨_, .badIndex h (by simp [Instr.wellFormed, legalReg, h]) (by simp [Instr.operandBytes, h]),
        by simp only [exec, execAdd, ha]; rfl⟩
  | print r =>
    rcases index_or_big r with ⟨i, hr⟩ | ⟨h, hr⟩
    · exact .inl ⟨_, .print hr, by simp only [exec, execPrint, hr]; rfl⟩
    · exact .inr ⟨_, .badIndex h (by simp [Instr.wellFormed, legalReg, h]) (by simp [Instr.operandBytes, h]),
        by simp only [exec, execPrint, hr]; rfl⟩
  | call r =>
    rcases index_or_big r with ⟨i, hr⟩ | ⟨h, hr⟩
    · by_cases hp : 255 < s.pc.toNat + 2
      · exact .inr ⟨_, .callReturn hr hp, by simp only [exec, execCall, hr, hp]; rfl⟩
      · by_cases hs : s.sp = 0
        · exact .inr ⟨_, .callPush hr (Nat.not_lt.1 hp) hs, by simp only [exec, execCall, hr, hp, State.pushCheck_error hs]; rfl⟩
        · exact .inl ⟨_, .call hr (Nat.not_lt.1 hp) hs,
            by simp only [exec, execCall, hr, hp, State.pushCheck_ok hs, State.memWrite_byte]; rfl⟩
    · exact .inr ⟨_, .badIndex h (by simp [Instr.wellFormed, legalReg, h]) (by simp [Instr.operandBytes, h]),
        by simp only [exec, execCall, hr]; rfl⟩
  | ret =>
    by_cases hs : s.sp.toNat < 0xF4
    · exact .inl ⟨_, .ret hs, by simp only [exec, execRet, State.popCheck_ok hs, State.memRead_byte]; rfl⟩
    · exact .inr ⟨_, .ret (Nat.not_lt.1 hs), by simp only [exec, execRet, State.popCheck_error (Nat.not_lt.1 hs)]; rfl⟩
  | compare a b =>
    rcases index_or_big a with ⟨i, ha⟩ | ⟨h, ha⟩
    · rcases index_or_big b with ⟨j, hb⟩ | ⟨h, hb⟩
      · exact .inl ⟨_, .compare ha hb, by simp only [exec, execCompare, ha, hb]; rfl⟩
      · have := (legalReg_of_index ha).2
        exact .inr ⟨_, .badIndex h (by simp [Instr.wellFormed, legalReg, h]) (by simp [Instr.operandBytes, h, this]),
          by simp only [exec, execCompare, ha, hb]; rfl⟩
    · exact .inr ⟨_, .badIndex h (by simp [Instr.wellFormed, legalReg, h]) (by simp [Instr.operandBytes, h]),
        by simp only [exec, execCompare, ha]; rfl⟩
  | jump r =>
    rcases index_or_big r with ⟨i, hr⟩ | ⟨h, hr⟩
    · exact .inl ⟨_, .jump hr, by simp only [exec, execJump, hr]; rfl⟩
    · exact .inr ⟨_, .badIndex h (by simp [Instr.wellFormed, legalReg, h]) (by simp [Instr.operandBytes, h]),
        by simp only [exec, execJump, hr]; rfl⟩
  | jumpIfNotEqual r =>
    rcases index_or_big r with ⟨i, hr⟩ | ⟨h, hr⟩
    · exact .inl ⟨_, .jumpIfNotEqual hr, by simp only [exec, execJumpIfNotEqual, hr]; rfl⟩
    · exact .inr ⟨_, .badIndex h (by simp [Instr.wellFormed, legalReg, h]) (by simp [Instr.operandBytes, h]),
        by simp only [exec, execJumpIfNotEqual, hr]; rfl⟩
  | jumpIfEqual r =>
    rcases index_or_big r with ⟨i, hr⟩ | ⟨h, hr⟩
    · exact .inl ⟨_, .jumpIfEqual hr, by simp only [exec, execJumpIfEqual, hr]; rfl⟩
    · exact .inr ⟨_, .badIndex h (by simp [Instr.wellFormed, legalReg, h]) (by simp [Instr.operandBytes, h]),
        by simp only [exec, execJumpIfEqual, hr]; rfl⟩

/-- `exec_cases` for a given next state. -/
theorem exec_next_cases {i : Instr} {s t : State} (h : exec i s = .next t) :
    Completes i s t ∨ ∃ f, Raises i s f ∧ t = s.raise f := by
  rcases exec_cases i s with ⟨u, hc, e⟩ | ⟨f, hf, e⟩
  · rw [e] at h; cases h; exact .inl hc
  · rw [e] at h; cases h; exact .inr ⟨f, hf, rfl⟩

theorem exec_total (i : Instr) (s : State) : ∃ t, exec i s = .next t := by
  rcases exec_cases i s with ⟨t, _, e⟩ | ⟨f, _, e⟩
  · exact ⟨t, e⟩
  · exact ⟨_, e⟩

/-! ### Fetch -/

/-- A fetch that raises: an unknown opcode inside memory, or the first absent byte, at offset `k`. -/
theorem State.fetch_error_cases {c : OpcodeMap} {s : State} {f : CoreFault} (h : s.fetch c = .error f) :
    (f = .invalidOpcode (Memory.read s.mem s.pc.toNat) ∧ s.pc.toNat ≤ 255) ∨
      ∃ k, k ≤ 2 ∧ 255 < s.pc.toNat + k ∧ (k = 0 ∨ s.pc.toNat ≤ 255) ∧ (k = 2 → s.pc.toNat = 254) ∧
        f = .outOfBoundsMem (BitVec.ofNat 9 (s.pc.toNat + k)) := by
  have fb : ∀ k, s.fetchByte k = if s.pc.toNat + k < 256 then some (Memory.read s.mem (s.pc.toNat + k)) else none := fun _ => rfl
  unfold State.fetch OpcodeMap.decodeFrom at h
  rw [fb 0, fb 1, fb 2] at h
  by_cases h0 : s.pc.toNat + 0 < 256
  · rw [if_pos h0] at h
    simp only [Nat.add_zero] at h
    cases hl : c.lookup (Memory.read s.mem s.pc.toNat) with
    | none => simp only [hl, Except.error.injEq] at h; exact .inl ⟨h.symm, by omega⟩
    | some m =>
      right
      by_cases h1 : s.pc.toNat + 1 < 256
      · by_cases h2 : s.pc.toNat + 2 < 256
        · cases hm : m.format <;> simp [hl, hm, h1, h2] at h
        · cases hm : m.format <;> simp [hl, hm, h1, h2] at h
          all_goals exact ⟨2, by omega, by omega, by omega, by omega, h.symm⟩
      · cases hm : m.format <;> simp [hl, hm, h1] at h
        all_goals exact ⟨1, by omega, by omega, by omega, by omega, h.symm⟩
  · rw [if_neg h0] at h
    simp only [Except.error.injEq] at h
    exact .inr ⟨0, by omega, by omega, by omega, by omega, h.symm⟩

/-! ### The step boundary -/

theorem State.idleBoundary_eq {s : State} (hi : s.st = .idle) : s.beginStep.idleBoundary s.sampled =
    { s with inputs := s.inputs.tail, outPort := none, st := if s.sampled.start then .running else .idle,
             mem := if s.sampled.ldWe then Memory.write s.mem s.sampled.ldAddr.toNat s.sampled.ldData else s.mem } := by
  have hb : s.beginStep.st = .idle := hi
  unfold State.idleBoundary State.hostStart State.hostLoadByte
  cases s.sampled.ldWe <;> cases s.sampled.start <;> simp [hi] <;> simp [State.beginStep, State.setMem, State.setSt, hi]

/-- Everything a step boundary can do. -/
inductive Stepped (c : OpcodeMap) (s : State) : State → Prop
  | reset (hr : s.sampled.rst = true) : Stepped c s s.beginStep.hostReset
  | idle (hr : s.sampled.rst = false) (hs : s.st = .idle) : Stepped c s (s.beginStep.idleBoundary s.sampled)
  | ran (hr : s.sampled.rst = false) (hs : s.st = .running) {i : Instr} {t : State} (hf : s.fetch c = .ok i)
      (he : exec i s.beginStep = .next t) : Stepped c s t
  | faulted (hr : s.sampled.rst = false) (hs : s.st = .running) {f : CoreFault} (hf : s.fetch c = .error f) :
      Stepped c s (s.beginStep.raise f)
  | ended (hr : s.sampled.rst = false) (hs : s.st = .halted ∨ s.st = .error) : Stepped c s s.beginStep

theorem stepWith_cases (c : OpcodeMap) (s : State) : ∃ t, stepWith c s = .next t ∧ Stepped c s t := by
  unfold stepWith
  cases hr : s.sampled.rst with
  | true => exact ⟨_, rfl, .reset hr⟩
  | false =>
    simp only [Bool.false_eq_true, ↓reduceIte]
    cases hs : s.st with
    | idle => exact ⟨_, rfl, .idle hr hs⟩
    | running =>
      have hb : s.beginStep.fetch c = s.fetch c := rfl
      unfold runStep
      rw [hb]
      cases hf : s.fetch c with
      | ok i =>
        obtain ⟨t, e⟩ := exec_total i s.beginStep
        exact ⟨t, e, .ran hr hs hf e⟩
      | error f => exact ⟨_, rfl, .faulted hr hs hf⟩
    | halted => exact ⟨_, rfl, .ended hr (.inl hs)⟩
    | error => exact ⟨_, rfl, .ended hr (.inr hs)⟩

/-- `stepWith_cases` for a given next state. -/
theorem stepWith_next_cases {c : OpcodeMap} {s t : State} (h : stepWith c s = .next t) : Stepped c s t := by
  obtain ⟨u, e, hu⟩ := stepWith_cases c s
  rw [e] at h; cases h; exact hu

end Sys2Proof.Machine
end

