-- ==== Sys2Proof/Laws/PerInstr.lean ====
section
/-! SUPPORT. Facts about each instruction as syntax, one lemma per constructor. -/

namespace Sys2Proof.Laws

/-- An instruction's word is its opcode byte and then exactly its format's operand bytes, under any opcode map (R50, R57). -/
def WordShape.Statement (i : Instr) : Prop :=
  ∀ c : OpcodeMap, (c.encode i).head? = some (c.code i.mnemonic) ∧ (c.encode i).length = i.length ∧ 1 ≤ i.length ∧ i.length ≤ maxLength

theorem WordShape.halt : WordShape.Statement .halt := fun _ => ⟨rfl, rfl, Nat.le_of_ble_eq_true rfl, Nat.le_of_ble_eq_true rfl⟩
theorem WordShape.loadImmediate (r v : Byte) : WordShape.Statement (.loadImmediate r v) := fun _ => ⟨rfl, rfl, Nat.le_of_ble_eq_true rfl, Nat.le_of_ble_eq_true rfl⟩
theorem WordShape.push (r : Byte) : WordShape.Statement (.push r) := fun _ => ⟨rfl, rfl, Nat.le_of_ble_eq_true rfl, Nat.le_of_ble_eq_true rfl⟩
theorem WordShape.pop (r : Byte) : WordShape.Statement (.pop r) := fun _ => ⟨rfl, rfl, Nat.le_of_ble_eq_true rfl, Nat.le_of_ble_eq_true rfl⟩
theorem WordShape.multiply (a b : Byte) : WordShape.Statement (.multiply a b) := fun _ => ⟨rfl, rfl, Nat.le_of_ble_eq_true rfl, Nat.le_of_ble_eq_true rfl⟩
theorem WordShape.add (a b : Byte) : WordShape.Statement (.add a b) := fun _ => ⟨rfl, rfl, Nat.le_of_ble_eq_true rfl, Nat.le_of_ble_eq_true rfl⟩
theorem WordShape.print (r : Byte) : WordShape.Statement (.print r) := fun _ => ⟨rfl, rfl, Nat.le_of_ble_eq_true rfl, Nat.le_of_ble_eq_true rfl⟩
theorem WordShape.call (r : Byte) : WordShape.Statement (.call r) := fun _ => ⟨rfl, rfl, Nat.le_of_ble_eq_true rfl, Nat.le_of_ble_eq_true rfl⟩
theorem WordShape.ret : WordShape.Statement .ret := fun _ => ⟨rfl, rfl, Nat.le_of_ble_eq_true rfl, Nat.le_of_ble_eq_true rfl⟩
theorem WordShape.compare (a b : Byte) : WordShape.Statement (.compare a b) := fun _ => ⟨rfl, rfl, Nat.le_of_ble_eq_true rfl, Nat.le_of_ble_eq_true rfl⟩
theorem WordShape.jump (r : Byte) : WordShape.Statement (.jump r) := fun _ => ⟨rfl, rfl, Nat.le_of_ble_eq_true rfl, Nat.le_of_ble_eq_true rfl⟩
theorem WordShape.jumpIfNotEqual (r : Byte) : WordShape.Statement (.jumpIfNotEqual r) := fun _ => ⟨rfl, rfl, Nat.le_of_ble_eq_true rfl, Nat.le_of_ble_eq_true rfl⟩
theorem WordShape.jumpIfEqual (r : Byte) : WordShape.Statement (.jumpIfEqual r) := fun _ => ⟨rfl, rfl, Nat.le_of_ble_eq_true rfl, Nat.le_of_ble_eq_true rfl⟩

end Sys2Proof.Laws
end

