-- ==== Sys2Proof/Tests/Slice0.lean ====
section
/-! SUPPORT. Tests. Every expected result is the spec's: the encodings of spec/30_encoding.md and the vectors V<n> of
spec/95_test_vectors.md. Then one witness theorem for each statement that has hypotheses. -/

namespace Sys2Proof.Tests

open Sys2Proof.Machine Sys2Proof.Claims

/-! ### The checks of `Instr.wellFormed` (R55, R59): one ill-formed term for each register operand -/

theorem test_wellFormed_accepts_the_boundary :
    [Instr.halt, .loadImmediate 7 255, .push 7, .pop 7, .multiply 7 7, .add 7 7, .print 7, .call 7, .ret, .compare 7 7, .jump 7,
      .jumpIfNotEqual 7, .jumpIfEqual 7].all Instr.wellFormed = true := by decide

theorem test_wellFormed_refuses_loadImmediate : (Instr.loadImmediate 8 0).wellFormed = false := by decide

theorem test_wellFormed_refuses_push : (Instr.push 8).wellFormed = false := by decide

theorem test_wellFormed_refuses_pop : (Instr.pop 255).wellFormed = false := by decide

theorem test_wellFormed_refuses_multiply_first : (Instr.multiply 8 0).wellFormed = false := by decide

theorem test_wellFormed_refuses_multiply_second : (Instr.multiply 0 8).wellFormed = false := by decide

theorem test_wellFormed_refuses_add_first : (Instr.add 8 0).wellFormed = false := by decide

theorem test_wellFormed_refuses_add_second : (Instr.add 0 8).wellFormed = false := by decide

theorem test_wellFormed_refuses_print : (Instr.print 200).wellFormed = false := by decide

theorem test_wellFormed_refuses_call : (Instr.call 8).wellFormed = false := by decide

theorem test_wellFormed_refuses_compare_first : (Instr.compare 8 0).wellFormed = false := by decide

theorem test_wellFormed_refuses_compare_second : (Instr.compare 0 8).wellFormed = false := by decide

theorem test_wellFormed_refuses_jump : (Instr.jump 8).wellFormed = false := by decide

theorem test_wellFormed_refuses_jumpIfNotEqual : (Instr.jumpIfNotEqual 8).wellFormed = false := by decide

theorem test_wellFormed_refuses_jumpIfEqual : (Instr.jumpIfEqual 8).wellFormed = false := by decide

/-! ### Decoding: each row of R53 from a word written out from its encoding (R50, R51, R54) -/

theorem test_decode_halt : decode [0b00000001] = .instr .halt := by decide

theorem test_decode_loadImmediate : decode [0b10000010, 0b00000101, 0b11001000] = .instr (.loadImmediate 5 200) := by decide

theorem test_decode_push : decode [0b01000101, 0b00000110] = .instr (.push 6) := by decide

theorem test_decode_pop : decode [0b01000110, 0b00000011] = .instr (.pop 3) := by decide

theorem test_decode_multiply : decode [0b10100010, 0b00000010, 0b00000100] = .instr (.multiply 2 4) := by decide

theorem test_decode_add : decode [0b10100000, 0b00000001, 0b00000110] = .instr (.add 1 6) := by decide

theorem test_decode_print : decode [0b01000111, 0b00000100] = .instr (.print 4) := by decide

theorem test_decode_call : decode [0b01010000, 0b00000101] = .instr (.call 5) := by decide

theorem test_decode_ret : decode [0b00010001] = .instr .ret := by decide

theorem test_decode_compare : decode [0b10100111, 0b00000011, 0b00000101] = .instr (.compare 3 5) := by decide

theorem test_decode_jump : decode [0b01010100, 0b00000001] = .instr (.jump 1) := by decide

theorem test_decode_jumpIfNotEqual : decode [0b01010110, 0b00000010] = .instr (.jumpIfNotEqual 2) := by decide

theorem test_decode_jumpIfEqual : decode [0b01010101, 0b00000110] = .instr (.jumpIfEqual 6) := by decide

/-- R55: an operand byte is not masked. -/
theorem test_decode_keeps_the_operand_byte : decode [0b01000111, 0b11001000] = .instr (.print 200) := by decide

/-- R58, R115: an unused byte value is rejected by name. -/
theorem test_decode_rejects_an_unknown_opcode : decode [0xA1, 0, 1] = .invalidOpcode 0xA1 := by decide

theorem test_decode_rejects_missing_bytes :
    decode [] = .truncated 0 ∧ decode [0x45] = .truncated 1 ∧ decode [0xA0, 1] = .truncated 2 := by decide

/-- The image of program P1 (spec/95_test_vectors.md). -/
theorem test_encode_program_one :
    [Instr.loadImmediate 0 5, .loadImmediate 1 6, .multiply 0 1, .print 0, .halt].flatMap encode =
      [0x82, 0x00, 0x05, 0x82, 0x01, 0x06, 0xA2, 0x00, 0x01, 0x47, 0x00, 0x01] := by decide

/-- The table's numbering: the opcode is bits 7..0, operand 1 bits 15..8, operand 2 bits 23..16. -/
theorem test_decodeTableWord : decodeTableWord 24 0x060582 = some (.loadImmediate 5 6) ∧
    decodeTableWord 8 0x01 = some .halt ∧ decodeTableWord 8 0x82 = some (.loadImmediate 0 0) ∧ decodeTableWord 8 0x00 = none := by
  decide

/-- R60's assembly form. -/
theorem test_asm : (Instr.add 7 1).asm = "ADD r7,r1" ∧ (Instr.loadImmediate 1 254).asm = "LOAD_IMMEDIATE r1,254" := by decide

/-! ### One step: the vectors of spec/95_test_vectors.md, Part 2 -/

/-- A Running core with cells, registers, pc and FL set, all else as after reset. -/
def start (pc : Word9) (cells : List Host.Cell) (regs : List (Fin 8 × Byte)) (fl : Byte := 0) : State :=
  let r := regs.foldl (fun (s : State) p => s.setReg p.1 p.2) State.reset
  { r with st := .running, pc := pc, fl := fl, mem := cells.foldl (fun m c => Memory.write m c.1 c.2) [] }

/-- Something holds of the next state. -/
def after (s : State) (p : State → Bool) : Bool :=
  match step s with
  | .next t => p t
  | .fault _ => false
  | .refused _ => false

/-- The next state differs from `s` by fault entry with this record, and in nothing else. -/
def faults (s : State) (cause : BitVec 3) (errPc info : Word9) : Bool :=
  after s fun t => t == { s with st := .error, errCause := cause, errPc := errPc, errInfo := info }

/-- V3: LOAD_IMMEDIATE r7 relocates the stack. -/
theorem test_loadImmediate_V3 : after (start 0 [(0, 0x82), (1, 7), (2, 0x80)] [])
    (fun t => t.reg 7 == 0x80 && t.pc == 3 && t.st == .running) = true := by decide

/-- V8: both operands past the top report 256. -/
theorem test_loadImmediate_V8 : faults (start 255 [(255, 0x82)] []) 2 255 0x100 = true := by decide

/-- V9. -/
theorem test_print_V9 : after (start 9 [(9, 0x47), (10, 0)] [(0, 0x1E)])
    (fun t => t.out == [30] && t.outData == some 30 && t.pc == 11) = true := by decide

/-- V12: nothing is emitted. -/
theorem test_print_V12 : faults (start 0 [(0, 0x47), (1, 0xC8)] [(0, 5)]) 3 0 0x0C8 = true := by decide

/-- V21: PUSH r7 stores the decremented pointer. -/
theorem test_push_V21 : after (start 0 [(0, 0x45), (1, 7)] [])
    (fun t => t.reg 7 == 0xF3 && Memory.read t.mem 0xF3 == 0xF3 && t.pc == 2) = true := by decide

/-- V22: PushCheck. -/
theorem test_push_V22 : faults (start 16 [(16, 0x45), (17, 0)] [(0, 9), (7, 0)]) 2 16 0x1FF = true := by decide

/-- V31: POP r7, the only wrapping increment. -/
theorem test_pop_V31 : after (start 0 [(0, 0x46), (1, 7), (0xF3, 0xFF)] [(7, 0xF3)]) (fun t => t.reg 7 == 0 && t.pc == 2) = true := by
  decide

/-- V32: the register fault comes before StackUnderflow. -/
theorem test_pop_V32 : faults (start 0 [(0, 0x46), (1, 9)] []) 3 0 0x009 = true := by decide

/-- V42: 255 * 255. -/
theorem test_multiply_V42 : after (start 0 [(0, 0xA2), (1, 0), (2, 1)] [(0, 0xFF), (1, 0xFF)])
    (fun t => t.reg 0 == 1 && t.reg 1 == 0xFF && t.pc == 3) = true := by decide

/-- V46: operand 1 is reported. -/
theorem test_multiply_V46 : faults (start 0 [(0, 0xA2), (1, 8), (2, 9)] []) 3 0 0x008 = true := by decide

/-- V54: 128 + 128, no carry flag. -/
theorem test_add_V54 : after (start 0 [(0, 0xA0), (1, 0), (2, 0)] [(0, 0x80)] 0x01)
    (fun t => t.reg 0 == 0 && t.fl == 0x01 && t.pc == 3) = true := by decide

/-- V55: ADD r7 moves the stack pointer. -/
theorem test_add_V55 : after (start 0 [(0, 0xA0), (1, 7), (2, 1)] [(1, 0xFF)])
    (fun t => t.reg 7 == 0xF3 && t.reg 1 == 0xFF && t.pc == 3) = true := by decide

/-- V62: equal; the old L is cleared. -/
theorem test_compare_V62 : after (start 0 [(0, 0xA7), (1, 0), (2, 1)] [(0, 9), (1, 9)] 0x04) (fun t => t.fl == 0x01 && t.pc == 3) = true := by
  decide

/-- V65: 255 is greater than 1, not -1. -/
theorem test_compare_V65 : after (start 0 [(0, 0xA7), (1, 0), (2, 1)] [(0, 0xFF), (1, 1)]) (fun t => t.fl == 0x02 && t.pc == 3) = true := by
  decide

/-- V71: CALL r7 jumps to the decremented pointer. -/
theorem test_call_V71 : after (start 0 [(0, 0x50), (1, 7)] [])
    (fun t => t.reg 7 == 0xF3 && Memory.read t.mem 0xF3 == 2 && t.pc == 243) = true := by decide

/-- V72: a return address of 256. -/
theorem test_call_V72 : faults (start 254 [(254, 0x50), (255, 0)] [(0, 5)]) 2 254 0x100 = true := by decide

/-- V82: RETURN at 255. -/
theorem test_ret_V82 : after (start 255 [(0x80, 0x42), (255, 0x11)] [(7, 0x80)]) (fun t => t.reg 7 == 0x81 && t.pc == 66) = true := by
  decide

/-- V81: RETURN on the empty stack. -/
theorem test_ret_V81 : faults (start 0 [(0, 0x11)] []) 4 0 0x0F4 = true := by decide

/-- V92: JUMP r7. -/
theorem test_jump_V92 : after (start 0 [(0, 0x54), (1, 7)] []) (fun t => t.pc == 244 && t.reg 7 == 0xF4) = true := by decide

/-- V93. -/
theorem test_jump_V93 : faults (start 0 [(0, 0x54), (1, 8)] []) 3 0 0x008 = true := by decide

/-- V100: taken. -/
theorem test_jumpIfNotEqual_V100 : after (start 24 [(24, 0x56), (25, 4)] [(4, 12)] 0x04) (fun t => t.pc == 12 && t.fl == 0x04) = true := by
  decide

/-- V104: faults though not taken. -/
theorem test_jumpIfNotEqual_V104 : faults (start 0 [(0, 0x56), (1, 8)] [] 0x01) 3 0 0x008 = true := by decide

/-- V110: taken. -/
theorem test_jumpIfEqual_V110 : after (start 10 [(10, 0x55), (11, 3)] [(3, 40)] 0x01) (fun t => t.pc == 40 && t.fl == 0x01) = true := by
  decide

/-- V111: not taken. -/
theorem test_jumpIfEqual_V111 : after (start 10 [(10, 0x55), (11, 3)] [(3, 40)] 0x02) (fun t => t.pc == 12) = true := by decide

/-- V121: HALT at 255. -/
theorem test_halt_V121 : after (start 255 [(255, 1)] []) (fun t => t.st == .halted && t.pc == 255) = true := by decide

/-- V130. -/
theorem test_fetch_V130 : faults (start 256 [] []) 2 256 0x100 = true := by decide

/-- V132. -/
theorem test_fetch_V132 : faults (start 255 [(255, 0xFF)] []) 1 255 0x0FF = true := by decide

/-! ### The host's side -/

/-- R154, R157: in Idle the write comes before start. -/
theorem test_idle_loads_then_starts :
    after { State.reset with inputs := [{ ldWe := true, ldAddr := 255, ldData := 7, start := true }] }
      (fun t => t.mem == [(255, 7)] && t.st == .running && t.pc == 0) = true := by decide

/-- R153: the load port does nothing outside Idle. -/
theorem test_halted_ignores_the_load_port :
    after { State.reset with st := .halted, inputs := [{ ldWe := true, ldAddr := 3, ldData := 7, start := true }] }
      (fun t => t.mem == [] && t.st == .halted) = true := by decide

/-- R200: reset leaves any state. -/
theorem test_reset_wins :
    after { start 255 [(255, 0xFF)] [(3, 9)] 0x04 with inputs := [{ rst := true, start := true }] } (fun t => t == State.reset) = true := by
  decide

/-- R26: the stream begins empty again, and the loader's samples are those of R202. -/
theorem test_loader_samples : loaderInputs [0x47, 0x07] =
    some [{ ldWe := true, ldAddr := 0, ldData := 0x47 }, { ldWe := true, ldAddr := 1, ldData := 0x07 }, { start := true }] := by decide

/-- R91: the host's line for V9. -/
theorem test_hostLine : hostLine 30 = "30\n" := by decide

/-- The first instruction after reset, as the host places it. -/
theorem test_withFetchWord_runs_the_word :
    after (State.reset.withFetchWord 24 0x050082) (fun t => t.reg 0 == 5 && t.pc == 3 && t.st == .running) = true := by decide

/-! ### Witnesses: a concrete state and operands for the hypotheses of each statement -/

/-- The default opcodes are distinct: the hypothesis of every statement over opcode maps. -/
theorem witness_distinct : OpcodeMap.default.Distinct := by decide

/-- The hypotheses inside `TopFault` at both ends of its range. -/
def topReady (op : Byte) (lo pc : Word9) : Prop :=
  Ready (start pc [(pc.toNat, op)] []) ∧ lo.toNat ≤ pc.toNat ∧ pc.toNat ≤ 255 ∧
    Memory.read (start pc [(pc.toNat, op)] []).mem (start pc [(pc.toNat, op)] []).pc.toNat = op

theorem witness_DecodingAnEncodingGivesItBack : OpcodeMap.default.Distinct := witness_distinct

theorem witness_DecodedBytesBeginWithTheEncoding : OpcodeMap.default.decode [0xA0, 7, 255, 9] = .instr (.add 7 255) := by decide

theorem witness_Exactly243BytesAreIllegalOpcodes : OpcodeMap.default.Distinct := witness_distinct

theorem witness_StepRunsTheDecodedInstruction :
    Ready (start 253 [(253, 0x82), (254, 3), (255, 9)] []) ∧
      decode (codeBytes (start 253 [(253, 0x82), (254, 3), (255, 9)] [])) = .instr (.loadImmediate 3 9) ∧
      Ready (start 255 [(255, 0x11)] []) ∧ decode (codeBytes (start 255 [(255, 0x11)] [])) = .instr .ret := by decide

theorem witness_EveryStepHasANextState : State.reset.sampled.rst = false := by decide

theorem witness_OpcodeFetchReadsAtPcOrFaultsAt256 :
    (start 255 [] []).pc.toNat ≤ 255 ∧ Ready (start 256 [] []) ∧ (start 256 [] []).pc = 256 := by decide

theorem witness_OpcodeMatchesOneEntryOrFaults :
    OpcodeMap.default.Distinct ∧ Ready (start 255 [(255, 0xA1)] []) ∧ (start 255 [(255, 0xA1)] []).pc.toNat ≤ 255 ∧
      ∀ m : Mnemonic, Memory.read (start 255 [(255, 0xA1)] []).mem (start 255 [(255, 0xA1)] []).pc.toNat ≠ OpcodeMap.default.code m :=
  ⟨by decide, by decide, by decide, fun m => by cases m <;> decide⟩

theorem witness_OperandFetchPastTheTopReports256 :
    Mnemonic.push.format = .r ∧ topReady 0x45 255 255 ∧ Mnemonic.add.format = .rr ∧ topReady 0xA0 254 254 ∧ topReady 0xA0 254 255 ∧
      Mnemonic.loadImmediate.format = .ri ∧ topReady 0x82 254 254 ∧ topReady 0x82 254 255 := by unfold topReady; decide

theorem witness_IllFormedInstructionsRaiseTheFirstBadIndex :
    (start 0 [] []).st = .running ∧ (Instr.add 7 8).wellFormed = false ∧ (Instr.add 7 7).wellFormed = true := by decide

theorem witness_NextPcIsTheSelectedOne :
    (∃ t, exec (.jumpIfEqual 3) (start 0 [] [] 0x01) = .next t ∧ (start 0 [] [] 0x01).st = .running ∧ t.st ≠ .error) ∧
      (∃ t, exec .ret (start 0 [] []) = .next t ∧ t.st = .error) ∧
      ∃ t, Ready (start 256 [] []) ∧ stepWith .default (start 256 [] []) = .next t ∧ t.st = .error :=
  ⟨⟨_, rfl, by decide, by decide⟩, ⟨_, rfl, by decide⟩, ⟨_, by decide, rfl, by decide⟩⟩

theorem witness_LoadImmediateWritesItsByte :
    7 < (8 : Byte).toNat ∧ OpcodeMap.default.Distinct ∧ topReady 0x82 254 254 ∧ topReady 0x82 254 255 := by unfold topReady; decide

theorem witness_PrintEmitsTheRegister : 7 < (8 : Byte).toNat ∧ OpcodeMap.default.Distinct ∧ topReady 0x47 255 255 := by
  unfold topReady; decide

theorem witness_PushDecrementsThenStores :
    (start 0 [] [(7, 1)]).reg 7 ≠ 0 ∧ (start 0 [] [(7, 0xFF)]).reg 7 ≠ 0 ∧ (start 0 [] [(7, 0)]).reg 7 = 0 ∧ 7 < (8 : Byte).toNat := by
  decide

theorem witness_PopLoadsThenIncrements :
    ((start 0 [] [(7, 0xF3)]).reg 7).toNat < 0xF4 ∧ (6 : Fin 8) ≠ 7 ∧ ((start 0 [] [(7, 0)]).reg 7).toNat < 0xF4 ∧
      0xF4 ≤ ((start 0 [] []).reg 7).toNat ∧ 0xF4 ≤ ((start 0 [] [(7, 0xFF)]).reg 7).toNat ∧ 7 < (8 : Byte).toNat := by decide

theorem witness_MultiplyKeepsTheLowByte :
    7 < (8 : Byte).toNat ∧ 7 < (255 : Byte).toNat ∧ OpcodeMap.default.Distinct ∧ topReady 0xA2 254 254 ∧ topReady 0xA2 254 255 := by
  unfold topReady; decide

theorem witness_AddKeepsTheLowByte :
    7 < (8 : Byte).toNat ∧ 7 < (255 : Byte).toNat ∧ OpcodeMap.default.Distinct ∧ topReady 0xA0 254 254 ∧ topReady 0xA0 254 255 := by
  unfold topReady; decide

theorem witness_CompareSetsExactlyOneFlag : 7 < (8 : Byte).toNat ∧ 7 < (255 : Byte).toNat := by decide

theorem witness_CallPushesTheReturnAddress :
    (start 253 [] [(7, 1)]).pc.toNat ≤ 253 ∧ (start 253 [] [(7, 1)]).reg 7 ≠ 0 ∧ (start 254 [] []).pc.toNat = 254 ∧
      (start 253 [] [(7, 0)]).pc.toNat ≤ 253 ∧ (start 253 [] [(7, 0)]).reg 7 = 0 ∧ 7 < (8 : Byte).toNat := by decide

theorem witness_ReturnPopsThePc :
    ((start 0 [] [(7, 0xF3)]).reg 7).toNat < 0xF4 ∧ 0xF4 ≤ ((start 0 [] []).reg 7).toNat := by decide

theorem witness_JumpLoadsThePc : 7 < (8 : Byte).toNat ∧ OpcodeMap.default.Distinct ∧ topReady 0x54 255 255 := by
  unfold topReady; decide

theorem witness_JumpIfNotEqualTestsTheEqualBit :
    (start 0 [] [] 0x00).fl.getLsbD 0 = false ∧ (start 0 [] [] 0x04).fl.getLsbD 0 = false ∧ (start 0 [] [] 0x01).fl.getLsbD 0 = true ∧
      7 < (8 : Byte).toNat := by decide

theorem witness_JumpIfEqualTestsTheEqualBit :
    (start 0 [] [] 0x01).fl.getLsbD 0 = true ∧ (start 0 [] [] 0x00).fl.getLsbD 0 = false ∧ (start 0 [] [] 0x02).fl.getLsbD 0 = false ∧
      7 < (8 : Byte).toNat := by decide

theorem witness_HaltEndsTheRun :
    OpcodeMap.default.Distinct ∧ Ready (start 255 [(255, 1)] []) ∧ (start 255 [(255, 1)] []).pc.toNat ≤ 255 ∧
      Memory.read (start 255 [(255, 1)] []).mem (start 255 [(255, 1)] []).pc.toNat = OpcodeMap.default.halt := by decide

theorem witness_OnlyTheListedRegistersChange :
    (∃ t, exec (.pop 3) (start 0 [] [(7, 0xF3)]) = .next t ∧ writesReg (.pop 3) 4 = false) ∧
      ∃ t, exec (.multiply 0 1) (start 0 [] []) = .next t ∧ writesReg (.multiply 0 1) 1 = false :=
  ⟨⟨_, rfl, by decide⟩, ⟨_, rfl, by decide⟩⟩

theorem witness_OnlyTheStackCellIsStored :
    (∃ t, exec (.push 3) (start 0 [] []) = .next t ∧ storesTo (.push 3) (start 0 [] []) ≠ some 0xF4 ∧
      storesTo (.push 3) (start 0 [] []) = some 0xF3) ∧
      ∃ t, exec (.print 3) (start 0 [] []) = .next t ∧ storesTo (.print 3) (start 0 [] []) ≠ some 0xF3 :=
  ⟨⟨_, rfl, by decide, by decide⟩, ⟨_, rfl, by decide⟩⟩

theorem witness_FlagsAreWrittenByCompareAndReadAtBitZero :
    (∃ t, exec (.add 0 1) (start 0 [] [] 0x02) = .next t ∧ (∀ a b : Byte, Instr.add 0 1 ≠ .compare a b) ∧
      ∀ r : Byte, Instr.add 0 1 ≠ .jumpIfEqual r ∧ Instr.add 0 1 ≠ .jumpIfNotEqual r) ∧
      (∃ t, exec (.compare 0 8) (start 0 [] []) = .next t) ∧
      ∃ t, exec (.jumpIfEqual 3) (start 0 [] [] 0x02) = .next t ∧ (0x04 : Byte).getLsbD 0 = (start 0 [] [] 0x02).fl.getLsbD 0 :=
  ⟨⟨_, rfl, by simp, by simp⟩, ⟨_, rfl⟩, ⟨_, rfl, by decide⟩⟩

theorem witness_StatusAndOutputFrame :
    (∃ t, (start 0 [] []).st = .running ∧ exec (.push 0) (start 0 [] []) = .next t ∧ t.st ≠ .error ∧ ∀ r : Byte, Instr.push 0 ≠ .print r) ∧
      ∃ t, exec .halt (start 0 [] []) = .next t ∧ t.st ≠ .error :=
  ⟨⟨_, by decide, rfl, by decide, by simp⟩, ⟨_, rfl, by decide⟩⟩

/-- One faulting step for each cause. -/
theorem witness_FaultEntryChangesOnlyStAndTheRecord :
    (∃ t, Ready (start 0 [] []) ∧ stepWith .default (start 0 [] []) = .next t ∧ t.st = .error ∧ t.errCause = 1) ∧
      (∃ t, stepWith .default (start 254 [(254, 0xA0)] []) = .next t ∧ t.st = .error ∧ t.errCause = 2) ∧
      (∃ t, stepWith .default (start 0 [(0, 0x54), (1, 8)] []) = .next t ∧ t.st = .error ∧ t.errCause = 3) ∧
      ∃ t, stepWith .default (start 0 [(0, 0x11)] []) = .next t ∧ t.st = .error ∧ t.errCause = 4 :=
  ⟨⟨_, by decide, rfl, by decide, by decide⟩, ⟨_, rfl, by decide, by decide⟩, ⟨_, rfl, by decide, by decide⟩,
    ⟨_, rfl, by decide, by decide⟩⟩

/-- Both arms: a CALL at 254 (return address 256, before PushCheck) and a CALL at 253 (no fault). -/
theorem witness_StepRaisesExactlyTheFirstFault :
    OpcodeMap.default.Distinct ∧ Ready (start 254 [(254, 0x50)] [(7, 0)]) ∧
      firstFault .default (start 254 [(254, 0x50)] [(7, 0)]) = some (.outOfBoundsMem 256) ∧
      firstFault .default (start 253 [(253, 0x50)] [(7, 1)]) = none := by decide

theorem witness_OutOfBoundsMemReports256Or1FF :
    (∃ t, Ready (start 256 [] []) ∧ (start 256 [] []).pc.toNat ≤ 256 ∧ stepWith .default (start 256 [] []) = .next t ∧ t.st = .error ∧
      t.errCause = 2) ∧
      ∃ t, stepWith .default (start 0 [(0, 0x45)] [(7, 0)]) = .next t ∧ t.st = .error ∧ t.errCause = 2 ∧ t.errInfo = 0x1FF :=
  ⟨⟨_, by decide, by decide, rfl, by decide, by decide⟩, ⟨_, rfl, by decide, by decide, by decide⟩⟩

/-- A core in Error that the host presents one sample to. -/
def inError (p : PortInput) : State := { State.reset with st := .error, errCause := 1, inputs := [p] }

theorem witness_ErrorIsLeftByResetAlone :
    (inError { start := true }).st = .error ∧ (∀ p ∈ (inError { start := true }).inputs, p.rst = false) ∧
      (inError { rst := true }).st = .error ∧ (inError { rst := true }).sampled.rst = true := by decide

/-- A state of each kind steps to a next state. -/
theorem witness_FsmFollowsItsTransitionTable :
    (∃ t, stepWith .default { State.reset with inputs := [{ rst := true }] } = .next t) ∧
      (∃ t, stepWith .default State.reset = .next t ∧ State.reset.st = .idle ∧ State.reset.sampled.rst = false) ∧
      (∃ t, stepWith .default (start 0 [(0, 1)] []) = .next t ∧ (start 0 [(0, 1)] []).st = .running) ∧
      (∃ t, stepWith .default { State.reset with st := .halted } = .next t) ∧
      ∃ t, stepWith .default { State.reset with st := .error } = .next t :=
  ⟨⟨_, rfl⟩, ⟨_, rfl, by decide, by decide⟩, ⟨_, rfl, by decide⟩, ⟨_, rfl⟩, ⟨_, rfl⟩⟩

theorem witness_ResetFromAnyStateGivesTheResetState :
    ({ start 9 [(3, 4)] [(1, 2)] 0x04 with inputs := [{ rst := true }] } : State).sampled.rst = true := by decide

theorem witness_IdleObeysTheLoadPortAndStart :
    let s : State := { State.reset with inputs := [{ ldWe := true, ldAddr := 255, ldData := 7, start := true }] }
    s.st = .idle ∧ s.sampled.rst = false := by decide

theorem witness_HostCannotActOutsideIdle :
    let p : PortInput := { ldWe := true, ldAddr := 3, ldData := 7, start := true }
    (start 0 [] []).st ≠ .idle ∧ p.rst = false ∧ ({} : PortInput).rst = false := by decide

theorem witness_BootLoadsTheImageAndStartsAtZero :
    (List.replicate 256 (0x47 : Byte)).length ≤ 256 ∧ 256 < (List.replicate 257 (0x47 : Byte)).length := by
  rw [List.length_replicate, List.length_replicate]; decide

theorem witness_EveryStepKeepsTheInvariant :
    ∃ t, (start 3 [(3, 0x11)] [] 0x04).Inv ∧ stepWith .default (start 3 [(3, 0x11)] [] 0x04) = .next t ∧ t.st = .error :=
  ⟨_, ⟨by decide, by decide, by decide, by decide, by decide, by decide, by intro v h; cases h⟩, rfl, by decide⟩

theorem witness_CanonicalMemoriesThatReadAlikeAreEqual :
    let m : Memory := Memory.write (Memory.write (Memory.write [] 255 1) 0 2) 9 0
    let n : Memory := Memory.write (Memory.write [] 0 2) 255 1
    Memory.wf m = true ∧ Memory.wf n = true ∧ ∀ a : Nat, a < 256 → Memory.read m a = Memory.read n a :=
  ⟨by decide, by decide, fun _ _ => rfl⟩

theorem witness_MemWriteSetsOneCellOrRaises :
    255 ≤ 255 ∧ Memory.wf State.reset.mem = true ∧ 254 ≠ 255 ∧ 255 < 256 ∧
      ∃ t, (start 253 [] []).st = .running ∧ exec (.call (regByte 0)) (start 253 [] []) = .next t ∧ t.st ≠ .error :=
  ⟨by decide, by decide, by decide, by decide, _, by decide, rfl, by decide⟩

theorem witness_NoInstructionWritesTheTopCell :
    ∃ t, Ready (start 0 [(0, 0x45)] [(7, 0xFF)]) ∧ stepWith .default (start 0 [(0, 0x45)] [(7, 0xFF)]) = .next t ∧ t.st = .running :=
  ⟨_, by decide, rfl, by decide⟩

theorem witness_PushedByteIsFetchedNext : Memory.wf (start 0 [] [(7, 1)]).mem = true ∧ (start 0 [] [(7, 1)]).reg 7 ≠ 0 := by decide

theorem witness_OnlyPrintEmits :
    (∃ t, Ready (start 0 [(0, 0x47)] []) ∧ stepWith .default (start 0 [(0, 0x47)] []) = .next t ∧ t.out = [0]) ∧
      ∃ t, Ready (start 0 [(0, 1)] []) ∧ stepWith .default (start 0 [(0, 1)] []) = .next t ∧ t.out = [] :=
  ⟨⟨_, by decide, rfl, by decide⟩, ⟨_, by decide, rfl, by decide⟩⟩

/-- Both ends of the range of `x[7]`, and what ran in between taken as nothing at all. -/
theorem witness_PopGivesBackWhatPushStored :
    Memory.wf (start 0 [] []).mem = true ∧ (start 0 [] []).reg 7 ≠ 0 ∧ ((start 0 [] []).reg 7).toNat ≤ 0xF4 ∧
      (start 0 [] [(7, 1)]).reg 7 ≠ 0 ∧ ((start 0 [] [(7, 1)]).reg 7).toNat ≤ 0xF4 ∧ (0 : Fin 8) ≠ 7 ∧ (6 : Fin 8) ≠ 7 ∧
      ∃ t, exec (.push (regByte 0)) (start 0 [] []) = .next t ∧ ∃ w : State, w.reg 7 = t.reg 7 ∧
        Memory.read w.mem (t.reg 7).toNat = Memory.read t.mem (t.reg 7).toNat :=
  ⟨by decide, by decide, by decide, by decide, by decide, by decide, by decide, _, rfl, _, rfl, rfl⟩

theorem witness_PopsReversePushes :
    Memory.wf (start 0 [] [(7, 3)]).mem = true ∧ ([0, 1, 6] : List (Fin 8)).length ≤ ((start 0 [] [(7, 3)]).reg 7).toNat ∧
      ((start 0 [] [(7, 3)]).reg 7).toNat ≤ 0xF4 ∧ 7 ∉ ([0, 1, 6] : List (Fin 8)) ∧ (2 : Fin 8) ≠ 7 ∧
      ((start 0 [] []).reg 7).toNat ≤ 0xF4 := by decide

theorem witness_ReturnResumesAfterTheCall :
    Memory.wf (start 253 [] [(7, 1)]).mem = true ∧ (start 253 [] [(7, 1)]).pc.toNat ≤ 253 ∧ (start 253 [] [(7, 1)]).reg 7 ≠ 0 ∧
      ((start 253 [] [(7, 1)]).reg 7).toNat ≤ 0xF4 ∧
      ∃ t, exec (.call (regByte 0)) (start 253 [] [(7, 1)]) = .next t ∧ ∃ w : State, w.reg 7 = t.reg 7 ∧
        Memory.read w.mem (t.reg 7).toNat = Memory.read t.mem (t.reg 7).toNat :=
  ⟨by decide, by decide, by decide, by decide, _, rfl, _, rfl, rfl⟩

end Sys2Proof.Tests
end

/-! PROOFS. The family of 10_state.md: what FL has to do with an instruction's outcome (R20, R21). -/

namespace Sys2Proof.Machine

open Sys2Proof.Claims

/-! ### `Completes` and `Raises` fix the next state -/

theorem regIndex_regByte (i : Fin 8) : regIndex (regByte i) = .ok i := by revert i; decide

theorem Completes.exec_eq {i : Instr} {s t : State} (h : Completes i s t) : exec i s = .next t := by
  cases h with
  | halt => rfl
  | loadImmediate hr => simp only [exec, execLoadImmediate, hr]; rfl
  | push hr hs => simp only [exec, execPush, hr, State.pushCheck_ok hs, State.memWrite_byte]; rfl
  | pop hr hs => simp only [exec, execPop, hr, State.popCheck_ok hs, State.memRead_byte]; rfl
  | multiply ha hb => simp only [exec, execMultiply, ha, hb]; rfl
  | add ha hb => simp only [exec, execAdd, ha, hb]; rfl
  | print hr => simp only [exec, execPrint, hr]; rfl
  | call hr hp hs =>
    simp only [exec, execCall, hr, Nat.not_lt.2 hp, State.pushCheck_ok hs, State.memWrite_byte]; rfl
  | ret hs => simp only [exec, execRet, State.popCheck_ok hs, State.memRead_byte]; rfl
  | compare ha hb => simp only [exec, execCompare, ha, hb]; rfl
  | jump hr => simp only [exec, execJump, hr]; rfl
  | jumpIfNotEqual hr => simp only [exec, execJumpIfNotEqual, hr]; rfl
  | jumpIfEqual hr => simp only [exec, execJumpIfEqual, hr]; rfl

/-- Every fault but a bad register index is raised by a well-formed instruction (R178: the index check comes first). -/
theorem Raises.badIndex_or_wellFormed {i : Instr} {s : State} {f : CoreFault} (h : Raises i s f) :
    (∃ r, f = .outOfBoundsReg r ∧ i.operandBytes.find? (fun b => decide (7 < b.toNat)) = some r) ∨
      i.wellFormed = true := by
  cases h with
  | badIndex _ _ hf => exact .inl ⟨_, rfl, hf⟩
  | push hr | pop hr | callReturn hr | callPush hr => exact .inr (legalReg_of_index hr).1
  | ret => exact .inr rfl

/-- An ill-formed instruction raises OutOfBounds(REG) for its first bad operand byte. -/
theorem exec_of_badIndex {i : Instr} {r : Byte} (s : State) (hw : i.wellFormed = false)
    (hf : i.operandBytes.find? (fun b => decide (7 < b.toNat)) = some r) :
    exec i s = .next (s.raise (.outOfBoundsReg r)) := by
  rcases exec_cases i s with ⟨t, hc, _⟩ | ⟨g, hg, e⟩
  · simp [hc.wellFormed] at hw
  · rcases hg.badIndex_or_wellFormed with ⟨r', rfl, hf'⟩ | hw'
    · cases hf.symm.trans hf'
      exact e
    · simp [hw'] at hw

theorem Raises.exec_eq {i : Instr} {s : State} {f : CoreFault} (h : Raises i s f) : exec i s = .next (s.raise f) := by
  cases h with
  | badIndex _ hw hf => exact exec_of_badIndex s hw hf
  | push hr hs => simp only [exec, execPush, hr, State.pushCheck_error hs]; rfl
  | pop hr hs => simp only [exec, execPop, hr, State.popCheck_error hs]; rfl
  | callReturn hr hp => simp only [exec, execCall, hr, hp]; rfl
  | callPush hr hp hs => simp only [exec, execCall, hr, Nat.not_lt.2 hp, State.pushCheck_error hs]; rfl
  | ret hs => simp only [exec, execRet, State.popCheck_error hs]; rfl

/-! ### FL is written by COMPARE alone -/

theorem Completes.fl_eq {i : Instr} {s t : State} (h : Completes i s t) (hi : ∀ a b : Byte, i ≠ .compare a b) :
    t.fl = s.fl := by
  cases h with
  | compare => exact absurd rfl (hi _ _)
  | jumpIfNotEqual | jumpIfEqual => split <;> rfl
  | _ => rfl

theorem exec_fl_eq {i : Instr} {s t : State} (h : exec i s = .next t) (hi : ∀ a b : Byte, i ≠ .compare a b) :
    t.fl = s.fl := by
  rcases exec_next_cases h with hc | ⟨f, _, rfl⟩
  · exact hc.fl_eq hi
  · rfl

/-- A COMPARE sets exactly one flag, or it raises OutOfBounds(REG) for one of its operand bytes. -/
theorem exec_compare_cases {a b : Byte} {s t : State} (h : exec (.compare a b) s = .next t) :
    t.fl = 0x01 ∨ t.fl = 0x02 ∨ t.fl = 0x04 ∨ t = s.raise (.outOfBoundsReg a) ∨ t = s.raise (.outOfBoundsReg b) := by
  rcases exec_next_cases h with hc | ⟨f, hf, rfl⟩
  · cases hc with
    | @compare _ _ _ i j =>
      rcases flOfLge_aluCmp (s.reg i) (s.reg j) with ⟨_, e⟩ | ⟨_, e⟩ | ⟨_, e⟩
      · exact .inl e
      · exact .inr (.inr (.inl e))
      · exact .inr (.inl e)
  · cases hf with
    | @badIndex _ _ r _ _ hr =>
      have hmem : r = a ∨ r = b := by simpa [Instr.operandBytes] using List.mem_of_find?_eq_some hr
      rcases hmem with rfl | rfl
      · exact .inr (.inr (.inr (.inl rfl)))
      · exact .inr (.inr (.inr (.inr rfl)))

/-! ### What an instruction reads of FL -/

/-- No check looks at FL. -/
theorem Raises.setFl {i : Instr} {s : State} {g : CoreFault} (h : Raises i s g) (f : Byte) : Raises i (s.setFl f) g := by
  cases h with
  | badIndex hr hw hf => exact .badIndex hr hw hf
  | push hr hs => exact .push hr hs
  | pop hr hs => exact .pop (s := s.setFl f) hr hs
  | callReturn hr hp => exact .callReturn (s := s.setFl f) hr hp
  | callPush hr hp hs => exact .callPush hr hp hs
  | ret hs => exact .ret (s := s.setFl f) hs

/-- Bit 0 of FL is all that the conditional jumps read, and the other instructions but COMPARE carry FL through unread. -/
theorem Completes.setFl {i : Instr} {s t : State} {f : Byte} (h : Completes i s t) (hi : ∀ a b : Byte, i ≠ .compare a b)
    (hj : (∀ r : Byte, i ≠ .jumpIfEqual r ∧ i ≠ .jumpIfNotEqual r) ∨ flagE f = flagE s.fl) :
    Completes i (s.setFl f) (t.setFl f) := by
  cases h with
  | halt => exact .halt
  | loadImmediate hr => exact .loadImmediate hr
  | push hr hs => exact .push (s := s.setFl f) hr hs
  | pop hr hs => exact .pop (s := s.setFl f) hr hs
  | multiply ha hb => exact .multiply (s := s.setFl f) ha hb
  | add ha hb => exact .add (s := s.setFl f) ha hb
  | print hr => exact .print (s := s.setFl f) hr
  | call hr hp hs => exact .call (s := s.setFl f) hr hp hs
  | ret hs => exact .ret (s := s.setFl f) hs
  | compare => exact absurd rfl (hi _ _)
  | jump hr => exact .jump (s := s.setFl f) hr
  | @jumpIfNotEqual _ r _ hr =>
    have he : flagE f = flagE s.fl := hj.resolve_left fun hne => (hne r).2 rfl
    have hc := Completes.jumpIfNotEqual (s := s.setFl f) hr
    rw [State.setFl_fl, he] at hc
    cases hs : flagE s.fl <;> rw [hs] at hc <;> exact hc
  | @jumpIfEqual _ r _ hr =>
    have he : flagE f = flagE s.fl := hj.resolve_left fun hne => (hne r).1 rfl
    have hc := Completes.jumpIfEqual (s := s.setFl f) hr
    rw [State.setFl_fl, he] at hc
    cases hs : flagE s.fl <;> rw [hs] at hc <;> exact hc

/-- An outcome does not change but for FL when FL does. -/
theorem exec_setFl {i : Instr} {s t : State} {f : Byte} (h : exec i s = .next t) (hi : ∀ a b : Byte, i ≠ .compare a b)
    (hj : (∀ r : Byte, i ≠ .jumpIfEqual r ∧ i ≠ .jumpIfNotEqual r) ∨ flagE f = flagE s.fl) :
    exec i (s.setFl f) = .next (t.setFl f) := by
  rcases exec_next_cases h with hc | ⟨g, hg, rfl⟩
  · exact (hc.setFl hi hj).exec_eq
  · exact (hg.setFl f).exec_eq

/-- COMPARE overwrites the whole of FL, so what FL held does not matter. -/
theorem exec_compare_setFl (i j : Fin 8) (s : State) (f : Byte) :
    exec (.compare (regByte i) (regByte j)) (s.setFl f) = exec (.compare (regByte i) (regByte j)) s :=
  calc exec (.compare (regByte i) (regByte j)) (s.setFl f)
    _ = .next ((s.setFl (flOfLge (aluCmp (s.reg i) (s.reg j)))).advance 2) :=
      (Completes.compare (s := s.setFl f) (regIndex_regByte i) (regIndex_regByte j)).exec_eq
    _ = exec (.compare (regByte i) (regByte j)) s :=
      (Completes.compare (regIndex_regByte i) (regIndex_regByte j)).exec_eq.symm

/-- Settles O28: FL's writer and its readers, instruction by instruction over what each can do. -/
theorem flagsAreWrittenByCompareAndReadAtBitZero : Obligations.FlagsAreWrittenByCompareAndReadAtBitZero :=
  ⟨fun _ _ _ => exec_fl_eq, fun _ _ _ _ => exec_compare_cases, fun _ _ _ _ => exec_setFl, exec_compare_setFl, fun _ => rfl⟩

end Sys2Proof.Machine

/-! PROOFS. The family of 20_memory.md: what MemWrite does inside the array and outside it, and that a CALL's return address is
an address of the array (R33). -/

namespace Sys2Proof.Machine

open Sys2Proof.Claims

/-- The counterpart of `State.memWrite_outside`. -/
theorem State.memWrite_inside (s : State) {a : Nat} (v : Byte) (h : a < memSize) : s.memWrite a v = .ok (s.setMem a v) := by
  simp [State.memWrite, h]

/-- A CALL that leaves no fault has a return address inside the array. -/
theorem exec_call_return_le {r : Byte} {s t : State} (h : exec (.call r) s = .next t) (hne : t.st ≠ .error) :
    s.pc.toNat + 2 ≤ 255 := by
  rcases exec_next_cases h with hc | ⟨f, _, rfl⟩
  · cases hc with
    | call _ hp _ => exact hp
  · exact absurd (State.raise_st s f) hne

/-- Settles O43: MemWrite by whether the address is in the array, CALL by whether it completes. -/
theorem memWriteSetsOneCellOrRaises : Obligations.MemWriteSetsOneCellOrRaises := by
  refine ⟨fun s a v ha => ⟨s.setMem a v, s.memWrite_inside v (Nat.lt_succ_of_le ha), rfl, ?_, ?_⟩, ?_, ?_⟩
  · exact Memory.read_write_same a v
  · exact fun _ => Memory.read_write_other s.mem v
  · exact fun s _ v ha => s.memWrite_outside v ha
  · exact fun _ _ _ _ => exec_call_return_le

end Sys2Proof.Machine

/-! PROOFS. The family of 40_fetch_and_dispatch.md: opcode fetch and lookup (R71, R72), and the next-pc selection (R77). -/

namespace Sys2Proof

/-- Under distinct opcode bytes a lookup hits exactly the entry whose byte it is given. -/
theorem OpcodeMap.lookup_eq_some_iff {c : OpcodeMap} (hc : c.Distinct) {m : Mnemonic} {b : Byte} :
    c.lookup b = some m ↔ b = c.code m := by
  refine ⟨fun h => (OpcodeMap.code_of_lookup h).symm, ?_⟩
  rintro rfl
  cases hl : c.lookup (c.code m) with
  | none => exact absurd rfl (OpcodeMap.lookup_eq_none.1 hl m)
  | some n => rw [OpcodeMap.code_injective hc (OpcodeMap.code_of_lookup hl)]

end Sys2Proof

namespace Sys2Proof.Machine

open Sys2Proof.Claims

/-! ### The next pc -/

/-- A legal register-index byte is the number of the register it names. -/
theorem toNat_of_regIndex {r : Byte} {i : Fin 8} (h : regIndex r = .ok i) : r.toNat = i.val := by
  rcases regIndex_cases r with ⟨_, e⟩ | ⟨_, e⟩
  · cases e.symm.trans h; rfl
  · cases e.symm.trans h

theorem regOf_eq_reg {r : Byte} {i : Fin 8} (s : State) (h : regIndex r = .ok i) : regOf s r = s.reg i := by
  simp [regOf, State.reg, toNat_of_regIndex h]

theorem regOf_seven (s : State) : regOf s 7 = s.sp := regOf_eq_reg s (i := spIndex) rfl

theorem eq_seven_iff_of_regIndex {r : Byte} {i : Fin 8} (h : regIndex r = .ok i) : r = 7 ↔ i = spIndex := by
  rw [← BitVec.toNat_inj, toNat_of_regIndex h, Fin.ext_iff]
  rfl

/-- The register a CALL jumps to is read after the decrement (R77, R120). -/
theorem decSp_reg_of_regIndex {r : Byte} {i : Fin 8} (s : State) (h : regIndex r = .ok i) :
    s.decSp.reg i = if r = 7 then regOf s 7 - 1 else regOf s r := by
  simp only [State.decSp_reg, eq_seven_iff_of_regIndex h, regOf_seven, regOf_eq_reg s h]

theorem Completes.pc_eq {i : Instr} {s t : State} (h : Completes i s t) : t.pc = nextPc i s := by
  cases h with
  | halt | loadImmediate | push | pop | multiply | add | print | compare => rfl
  | call hr => simp [nextPc, decSp_reg_of_regIndex s hr]
  | ret => rw [nextPc, regOf_seven]; rfl
  | jump hr => simp [nextPc, regOf_eq_reg s hr]
  | jumpIfNotEqual hr | jumpIfEqual hr =>
    rw [nextPc, flagE, regOf_eq_reg s hr]
    cases s.fl.getLsbD 0 <;> rfl

theorem Completes.st_ne_error {i : Instr} {s t : State} (h : Completes i s t) (hs : s.st = .running) : t.st ≠ .error := by
  rw [h.st hs]
  split <;> decide

/-- An instruction that completes selects by R77's table; one that raises holds the pc. -/
theorem exec_pc_eq {i : Instr} {s t : State} (hs : s.st = .running) (h : exec i s = .next t) :
    t.pc = if t.st = .error then s.pc else nextPc i s := by
  rcases exec_next_cases h with hc | ⟨f, _, rfl⟩
  · rw [if_neg (hc.st_ne_error hs), hc.pc_eq]
  · rfl

/-- A step that ends in Error holds the pc, wherever in the step the fault was raised. -/
theorem stepWith_pc_of_error {c : OpcodeMap} {s t : State} (hr : Ready s) (h : stepWith c s = .next t)
    (ht : t.st = .error) : t.pc = s.pc := by
  obtain ⟨hs, hrst⟩ := hr
  cases stepWith_next_cases h with
  | reset hrst' => simp [hrst] at hrst'
  | idle _ hs' => simp [hs] at hs'
  | ran _ _ _ he => simpa [ht] using exec_pc_eq (s := s.beginStep) hs he
  | faulted => rfl
  | ended _ hs' => simp [hs] at hs'

/-- Settles O12, from what each instruction leaves when it completes and from the frame of fault entry. -/
theorem nextPcIsTheSelectedOne : Obligations.NextPcIsTheSelectedOne :=
  ⟨fun _ _ _ => exec_pc_eq, fun _ _ _ => stepWith_pc_of_error⟩

/-! ### A fetch that raises -/

/-- A fault of the fetch unit is the whole step of a Running core. -/
theorem stepWith_of_fetch_error {c : OpcodeMap} {s : State} {f : CoreFault} (hr : Ready s) (hf : s.fetch c = .error f) :
    stepWith c s = .next (s.beginStep.raise f) := by
  obtain ⟨hs, hrst⟩ := hr
  have hb : s.beginStep.fetch c = .error f := hf
  simp [stepWith, runStep, hs, hrst, hb]

/-- R71: above the top of memory there is no opcode. -/
theorem State.fetch_above {s : State} (c : OpcodeMap) (h : memSize ≤ s.pc.toNat) :
    s.fetch c = .error (.outOfBoundsMem s.pc) := by
  simp [State.fetch, OpcodeMap.decodeFrom, State.fetchByte_none (k := 0) h]

/-- R72: a byte that is no entry's opcode. -/
theorem State.fetch_miss {c : OpcodeMap} {s : State} (h : s.pc.toNat < memSize)
    (hm : c.lookup (Memory.read s.mem s.pc.toNat) = none) :
    s.fetch c = .error (.invalidOpcode (Memory.read s.mem s.pc.toNat)) := by
  simp [State.fetch, OpcodeMap.decodeFrom, State.fetchByte_some (k := 0) h, hm]

/-- Settles O8: the byte at `pc` inside the array, fault entry at 256. -/
theorem opcodeFetchReadsAtPcOrFaultsAt256 : Obligations.OpcodeFetchReadsAtPcOrFaultsAt256 := by
  refine ⟨fun s h => State.fetchByte_some (k := 0) (Nat.lt_succ_of_le h), fun c s hr hpc => ?_⟩
  have hf : s.fetch c = .error (.outOfBoundsMem s.pc) := State.fetch_above c (by simp [hpc])
  rw [stepWith_of_fetch_error hr hf]
  simp [State.raise, CoreFault.code, CoreFault.info, hpc]

/-- Settles O9: a lookup is exact, and a miss is raised by the fetch. -/
theorem opcodeMatchesOneEntryOrFaults : Obligations.OpcodeMatchesOneEntryOrFaults := by
  refine ⟨fun c hc m b => OpcodeMap.lookup_eq_some_iff hc, fun c s hr hpc hm => ?_⟩
  have hl : c.lookup (Memory.read s.mem s.pc.toNat) = none := OpcodeMap.lookup_eq_none.2 fun m => (hm m).symm
  exact stepWith_of_fetch_error hr (State.fetch_miss (Nat.lt_succ_of_le hpc) hl)

end Sys2Proof.Machine

/-! PROOFS. The family of 41_data_movement.md: LOAD_IMMEDIATE and PRINT (R90, R92), with the operand fetch past the top (R73) and
the bad first operand (R74) for every instruction that has one. -/

namespace Sys2Proof.Machine

open Sys2Proof.Claims

/-! ### A bad first operand -/

/-- Every instruction with operands has a register index first (R51). -/
theorem wellFormed_eq_false_of_first {i : Instr} {r : Byte} {rest : List Byte} (ho : i.operandBytes = r :: rest)
    (hr : 7 < r.toNat) : i.wellFormed = false := by
  have hl : legalReg r = false := by simpa [legalReg] using hr
  cases i with
  | halt | ret => cases ho
  | loadImmediate | push | pop | print | call | jump | jumpIfNotEqual | jumpIfEqual => cases ho; exact hl
  | multiply | add | compare => cases ho; simp [Instr.wellFormed, hl]

theorem exec_of_first_index_above {i : Instr} {r : Byte} {rest : List Byte} (s : State) (ho : i.operandBytes = r :: rest)
    (hr : 7 < r.toNat) : exec i s = .next (s.raise (.outOfBoundsReg r)) :=
  exec_of_badIndex s (wellFormed_eq_false_of_first ho hr) (by simp [ho, hr])

/-! ### Operands past the top of memory -/

/-- An instruction that begins inside memory and does not end there: the first absent byte is the one at 256,
whether it is operand 1 or operand 2 (R73). -/
theorem State.fetch_past_top {c : OpcodeMap} {s : State} {m : Mnemonic}
    (hl : c.lookup (Memory.read s.mem s.pc.toNat) = some m) (hpc : s.pc.toNat ≤ 255)
    (hk : 256 ≤ s.pc.toNat + m.format.operands) : s.fetch c = .error (.outOfBoundsMem 256) := by
  have h0 : s.fetchByte 0 = some (Memory.read s.mem s.pc.toNat) := State.fetchByte_some (k := 0) (Nat.lt_succ_of_le hpc)
  by_cases h1 : s.pc.toNat + 1 < 256
  · cases hm : m.format with
    | z | r =>
      simp only [hm, Format.operands] at hk
      omega
    | rr | ri =>
      simp only [hm, Format.operands] at hk
      have htop : s.pc.toNat + 2 = 256 := by omega
      simp [State.fetch, OpcodeMap.decodeFrom, h0, hl, hm, State.fetchByte_some h1, State.fetchByte_none htop.ge, htop]
  · have htop : s.pc.toNat + 1 = 256 := by omega
    cases hm : m.format with
    | z =>
      simp only [hm, Format.operands] at hk
      omega
    | r | rr | ri =>
      simp [State.fetch, OpcodeMap.decodeFrom, h0, hl, hm, State.fetchByte_none htop.ge, htop]

theorem topFault_of_operands {c : OpcodeMap} (hc : c.Distinct) (m : Mnemonic) {lo : Nat}
    (hlo : 256 ≤ lo + m.format.operands) : TopFault c (c.code m) lo := by
  intro s hr hge hle hop
  have hl : c.lookup (Memory.read s.mem s.pc.toNat) = some m := (OpcodeMap.lookup_eq_some_iff hc).2 hop
  exact stepWith_of_fetch_error hr (State.fetch_past_top hl hle (by omega))

/-! ### LOAD_IMMEDIATE and PRINT -/

theorem exec_loadImmediate_regByte (i : Fin 8) (v : Byte) (s : State) :
    exec (.loadImmediate (regByte i) v) s = .next ((s.setReg i v).advance 2) :=
  (Completes.loadImmediate (regIndex_regByte i)).exec_eq

theorem exec_print_regByte (i : Fin 8) (s : State) :
    exec (.print (regByte i)) s = .next ((s.output (s.reg i)).advance 1) :=
  (Completes.print (regIndex_regByte i)).exec_eq

/-- The byte a LOAD_IMMEDIATE wrote is what a PRINT of its register emits. -/
theorem print_after_loadImmediate (i : Fin 8) (v : Byte) (s : State) :
    ∃ t u : State, exec (.loadImmediate (regByte i) v) s = .next t ∧ exec (.print (regByte i)) t = .next u ∧
      u.out = s.out ++ [v] :=
  ⟨_, _, exec_loadImmediate_regByte i v s, exec_print_regByte i _, by simp⟩

/-- Settles O13: what a completed LOAD_IMMEDIATE leaves, then its two faults and its encoding. -/
theorem loadImmediateWritesItsByte : Obligations.LoadImmediateWritesItsByte := by
  refine ⟨exec_loadImmediate_regByte, ?_, print_after_loadImmediate, ?_, fun _ _ _ => rfl, rfl⟩
  · exact fun _ _ s hr => exec_of_first_index_above s rfl hr
  · exact fun _ hc => topFault_of_operands hc .loadImmediate (by decide)

/-- Settles O14: what a completed PRINT emits, then its two faults and its encoding. -/
theorem printEmitsTheRegister : Obligations.PrintEmitsTheRegister := by
  refine ⟨exec_print_regByte, ?_, ?_, fun _ _ => rfl, rfl⟩
  · exact fun _ s hr => exec_of_first_index_above s rfl hr
  · exact fun _ hc => topFault_of_operands hc .print (by decide)

end Sys2Proof.Machine

/-! PROOFS. The family of 43_alu.md: MULTIPLY and ADD (R111, R112), with the bad second operand (R74) for every instruction of two
registers. -/

namespace Sys2Proof.Machine

open Sys2Proof.Claims

/-! ### A bad second operand -/

theorem not_seven_lt_regByte (i : Fin 8) : ¬ 7 < (regByte i).toNat := (legalReg_of_index (regIndex_regByte i)).2

/-- Of the formats with two operands only RR has a register index second (R51). -/
theorem wellFormed_eq_false_of_second {i : Instr} {a b : Byte} (hm : i.mnemonic.format = .rr) (ho : i.operandBytes = [a, b])
    (hb : 7 < b.toNat) : i.wellFormed = false := by
  have hl : legalReg b = false := by simpa [legalReg] using hb
  cases i with
  | multiply | add | compare => cases ho; simp [Instr.wellFormed, hl]
  | halt | loadImmediate | push | pop | print | call | ret | jump | jumpIfNotEqual | jumpIfEqual => cases hm

/-- Operand 2 is the one reported when operand 1 names a register. -/
theorem exec_of_second_index_above {i : Instr} {j : Fin 8} {b : Byte} (s : State) (hm : i.mnemonic.format = .rr)
    (ho : i.operandBytes = [regByte j, b]) (hb : 7 < b.toNat) : exec i s = .next (s.raise (.outOfBoundsReg b)) :=
  exec_of_badIndex s (wellFormed_eq_false_of_second hm ho hb) (by simp [ho, hb, not_seven_lt_regByte])

/-! ### MULTIPLY and ADD -/

theorem aluMul_eq_mod (p q : Byte) : aluMul p q = BitVec.ofNat 8 (p.toNat * q.toNat % 256) :=
  BitVec.eq_of_toNat_eq (by simp [aluMul])

theorem aluAdd_eq_mod (p q : Byte) : aluAdd p q = BitVec.ofNat 8 ((p.toNat + q.toNat) % 256) :=
  BitVec.eq_of_toNat_eq (by simp [aluAdd])

theorem exec_multiply_regByte (i j : Fin 8) (s : State) : exec (.multiply (regByte i) (regByte j)) s =
    .next ((s.setReg i (BitVec.ofNat 8 ((s.reg i).toNat * (s.reg j).toNat % 256))).advance 2) := by
  rw [← aluMul_eq_mod]
  exact (Completes.multiply (regIndex_regByte i) (regIndex_regByte j)).exec_eq

theorem exec_add_regByte (i j : Fin 8) (s : State) : exec (.add (regByte i) (regByte j)) s =
    .next ((s.setReg i (BitVec.ofNat 8 (((s.reg i).toNat + (s.reg j).toNat) % 256))).advance 2) := by
  rw [← aluAdd_eq_mod]
  exact (Completes.add (regIndex_regByte i) (regIndex_regByte j)).exec_eq

/-- Settles O17: what a completed MULTIPLY leaves, then its three faults and its encoding. -/
theorem multiplyKeepsTheLowByte : Obligations.MultiplyKeepsTheLowByte := by
  refine ⟨exec_multiply_regByte, ?_, ?_, ?_, fun _ _ _ => rfl, rfl⟩
  · exact fun _ _ s ha => exec_of_first_index_above s rfl ha
  · exact fun _ _ s hb => exec_of_second_index_above s rfl rfl hb
  · exact fun _ hc => topFault_of_operands hc .multiply (by decide)

/-- Settles O18: what a completed ADD leaves, then its three faults and its encoding. -/
theorem addKeepsTheLowByte : Obligations.AddKeepsTheLowByte := by
  refine ⟨exec_add_regByte, ?_, ?_, ?_, fun _ _ _ => rfl, rfl⟩
  · exact fun _ _ s ha => exec_of_first_index_above s rfl ha
  · exact fun _ _ s hb => exec_of_second_index_above s rfl rfl hb
  · exact fun _ hc => topFault_of_operands hc .add (by decide)

end Sys2Proof.Machine

/-! PROOFS. The family of 44_control_transfer.md: JUMP (R122). -/

namespace Sys2Proof.Machine

open Sys2Proof.Claims

theorem exec_jump_regByte (i : Fin 8) (s : State) : exec (.jump (regByte i)) s = .next (s.redirect (s.reg i)) :=
  (Completes.jump (regIndex_regByte i)).exec_eq

/-- Settles O22: a completed JUMP is a redirect and nothing else, then its two faults and its encoding. -/
theorem jumpLoadsThePc : Obligations.JumpLoadsThePc := by
  refine ⟨exec_jump_regByte, ?_, ?_, fun _ _ => rfl, rfl⟩
  · exact fun _ s hr => exec_of_first_index_above s rfl hr
  · exact fun _ hc => topFault_of_operands hc .jump (by decide)

end Sys2Proof.Machine

/-! PROOFS. The family of 60_exceptions.md: Error is terminal and reset alone leaves it (R179). -/

namespace Sys2Proof.Machine

open Sys2Proof.Claims

/-- R200: a boundary with reset high does nothing else, whatever `st` is. -/
theorem stepWith_of_rst (c : OpcodeMap) {s : State} (hr : s.sampled.rst = true) : stepWith c s = .next s.beginStep.hostReset := by
  simp [stepWith, hr]

/-- R179: without reset, a boundary in Error only uses up its sample and lowers `out_valid`. -/
theorem stepWith_of_error (c : OpcodeMap) {s : State} (hs : s.st = .error) (hr : s.sampled.rst = false) :
    stepWith c s = .next s.beginStep := by
  simp [stepWith, hr, hs]

/-- Where no presented sample resets, this boundary's does not: with none left, the ports are all low. -/
theorem State.sampled_rst_of_inputs {s : State} (h : ∀ p ∈ s.inputs, p.rst = false) : s.sampled.rst = false := by
  unfold State.sampled
  cases hi : s.inputs with
  | nil => rfl
  | cons p ps => exact h p (by simp [hi])

theorem runWith_succ_of_next {c : OpcodeMap} {s t : State} (n : Nat) (h : stepWith c s = .next t) :
    runWith c (n + 1) s = runWith c n t := by
  simp [runWith, h]

/-- Any positive number of boundaries in Error without reset uses up as many samples and changes nothing else that is kept. -/
theorem runWith_of_error (c : OpcodeMap) (n : Nat) (s : State) (hs : s.st = .error) (hr : ∀ p ∈ s.inputs, p.rst = false) :
    runWith c (n + 1) s = .next { s with inputs := s.inputs.drop (n + 1), outPort := none } := by
  induction n generalizing s with
  | zero =>
    rw [runWith_succ_of_next 0 (stepWith_of_error c hs (State.sampled_rst_of_inputs hr))]
    simp [runWith, State.beginStep]
  | succ n ih =>
    have hr' : ∀ p ∈ s.beginStep.inputs, p.rst = false := fun p hp => hr p (List.mem_of_mem_tail hp)
    rw [runWith_succ_of_next (n + 1) (stepWith_of_error c hs (State.sampled_rst_of_inputs hr)), ih s.beginStep hs hr']
    simp [State.beginStep]

/-- Settles O33, from what a boundary in Error does without reset, any number of times, and what reset does in any state. -/
theorem errorIsLeftByResetAlone : Obligations.ErrorIsLeftByResetAlone :=
  ⟨runWith_of_error, fun c _ _ hr => stepWith_of_rst c hr, rfl, rfl, rfl⟩

end Sys2Proof.Machine

/-! PROOFS. The family of 30_encoding.md: when the decoder answers an instruction, and how many bytes name none (R50 to R58). -/

namespace Sys2Proof

/-! ### The decoder and the encoder -/

@[simp] theorem Mnemonic.mnemonic_build (m : Mnemonic) (o1 o2 : Byte) : (m.build o1 o2).mnemonic = m := by cases m <;> rfl

theorem Mnemonic.operandBytes_build (m : Mnemonic) (o1 o2 : Byte) :
    (m.build o1 o2).operandBytes = [o1, o2].take m.format.operands := by cases m <;> rfl

/-- A reader shows `i` when it gives an opcode byte of `i`'s entry, then `i`'s operand bytes (R50). -/
def Instr.ShownBy (i : Instr) (c : OpcodeMap) (read : Nat → Option Byte) : Prop :=
  (∃ op, read 0 = some op ∧ c.lookup op = some i.mnemonic) ∧
    ∀ k, k < i.operandBytes.length → read (k + 1) = i.operandBytes[k]?

/-- The decoder answers no instruction but the one shown. -/
theorem OpcodeMap.shownBy_of_decodeFrom {c : OpcodeMap} {read : Nat → Option Byte} {i : Instr}
    (h : c.decodeFrom read = .instr i) : i.ShownBy c read := by
  unfold OpcodeMap.decodeFrom at h
  split at h
  · cases h
  next op h0 =>
  split at h
  · cases h
  next m hl =>
  have hop (o1 o2 : Byte) : ∃ op, read 0 = some op ∧ c.lookup op = some (m.build o1 o2).mnemonic := ⟨op, h0, by simp [hl]⟩
  split at h
  case h_1 hm =>
    cases h
    exact ⟨hop 0 0, by simp [Mnemonic.operandBytes_build, hm, Format.operands]⟩
  case h_2 hm =>
    split at h
    · cases h
    next o1 h1 =>
    cases h
    exact ⟨hop o1 0, by simp [Mnemonic.operandBytes_build, hm, Format.operands, h1]⟩
  case h_3 hm | h_4 hm =>
    split at h
    · cases h
    next o1 h1 =>
    split at h
    · cases h
    next o2 h2 =>
    cases h
    refine ⟨hop o1 o2, ?_⟩
    rw [Mnemonic.operandBytes_build, hm]
    rintro (_ | _ | k) hk
    · exact h1
    · exact h2
    · simp [Format.operands] at hk

/-- The decoder answers the instruction shown. -/
theorem OpcodeMap.decodeFrom_of_shownBy {c : OpcodeMap} {read : Nat → Option Byte} {i : Instr} (h : i.ShownBy c read) :
    c.decodeFrom read = .instr i := by
  obtain ⟨⟨op, h0, hl⟩, hk⟩ := h
  cases i with
  | halt | ret => simp [decodeFrom, h0, hl, Instr.mnemonic, Mnemonic.format, Mnemonic.build]
  | push r | pop r | print r | call r | jump r | jumpIfNotEqual r | jumpIfEqual r =>
    have h1 : read 1 = some r := hk 0 Nat.one_pos
    simp [decodeFrom, h0, hl, h1, Instr.mnemonic, Mnemonic.format, Mnemonic.build]
  | loadImmediate a b | multiply a b | add a b | compare a b =>
    have h1 : read 1 = some a := hk 0 Nat.two_pos
    have h2 : read 2 = some b := hk 1 Nat.one_lt_two
    simp [decodeFrom, h0, hl, h1, h2, Instr.mnemonic, Mnemonic.format, Mnemonic.build]

/-- Under distinct opcodes, bytes that begin with `i`'s encoding show `i`. -/
theorem Instr.shownBy_append {c : OpcodeMap} (hc : c.Distinct) (i : Instr) (rest : List Byte) :
    i.ShownBy c fun k => (c.encode i ++ rest)[k]? :=
  ⟨⟨c.code i.mnemonic, rfl, (OpcodeMap.lookup_eq_some_iff hc).2 rfl⟩, fun _ hk => List.getElem?_append_left (Nat.succ_lt_succ hk)⟩

/-- Settles O3: an encoding shows its instruction, whatever follows it. -/
theorem decodingAnEncodingGivesItBack : Obligations.DecodingAnEncodingGivesItBack :=
  fun _ hc i rest => OpcodeMap.decodeFrom_of_shownBy (i.shownBy_append hc rest)

theorem Instr.ShownBy.encode_isPrefix {i : Instr} {c : OpcodeMap} {bytes : List Byte} (h : i.ShownBy c fun k => bytes[k]?) :
    c.encode i <+: bytes := by
  obtain ⟨⟨op, h0, hl⟩, hk⟩ := h
  have hcode : c.code i.mnemonic = op := OpcodeMap.code_of_lookup hl
  rw [List.prefix_iff_getElem?]
  rintro (_ | k) hk'
  · simpa [OpcodeMap.encode, hcode] using h0
  · have hlt : k < i.operandBytes.length := Nat.lt_of_succ_lt_succ hk'
    exact (hk k hlt).trans (List.getElem?_eq_getElem hlt)

/-- Settles O4: the bytes that show an instruction are those of its encoding, in order. -/
theorem decodedBytesBeginWithTheEncoding : Obligations.DecodedBytesBeginWithTheEncoding :=
  fun _ _ _ h => (OpcodeMap.shownBy_of_decodeFrom h).encode_isPrefix

/-- Settles O2: closed words, evaluated. -/
theorem defaultWordsDecodeAsWritten : Obligations.DefaultWordsDecodeAsWritten := by
  unfold Obligations.DefaultWordsDecodeAsWritten
  decide

/-! ### Illegal opcode bytes -/

theorem OpcodeMap.lookup_ne_none_iff_mem {c : OpcodeMap} {op : Byte} :
    c.lookup op ≠ none ↔ op ∈ Mnemonic.all.map c.code := by
  simp [OpcodeMap.lookup_eq_none, Mnemonic.mem_all]

/-- The byte numbers that a lookup hits are those of the 13 entries' opcodes. -/
theorem OpcodeMap.filter_hit_perm {c : OpcodeMap} (hc : c.Distinct) :
    ((List.range 256).filter fun b => !(c.lookup (BitVec.ofNat 8 b) == none)).Perm ((Mnemonic.all.map c.code).map BitVec.toNat) := by
  refine (List.perm_ext_iff_of_nodup (List.nodup_range.filter _) (hc.map fun _ _ => BitVec.eq_of_toNat_eq)).2 fun b => ?_
  have hhit : (!(c.lookup (BitVec.ofNat 8 b) == none)) = true ↔ BitVec.ofNat 8 b ∈ Mnemonic.all.map c.code := by
    rw [← OpcodeMap.lookup_ne_none_iff_mem, Bool.not_eq_true', beq_eq_false_iff_ne]
  rw [List.mem_filter, hhit, List.mem_range, List.mem_map (f := BitVec.toNat)]
  constructor
  · exact fun ⟨hb, hm⟩ => ⟨_, hm, (BitVec.toNat_ofNat ..).trans (Nat.mod_eq_of_lt hb)⟩
  · rintro ⟨op, hop, rfl⟩
    exact ⟨op.isLt, by rwa [BitVec.ofNat_toNat, BitVec.setWidth_eq]⟩

/-- Settles O5: the misses are what the 13 hits leave of the 256 byte values. -/
theorem exactly243BytesAreIllegalOpcodes : Obligations.Exactly243BytesAreIllegalOpcodes := by
  intro c hc
  have hsum := List.length_eq_length_filter_add (l := List.range 256) fun b => c.lookup (BitVec.ofNat 8 b) == none
  rw [(OpcodeMap.filter_hit_perm hc).length_eq, List.length_map, List.length_map, List.length_range] at hsum
  exact Nat.add_right_cancel hsum.symm

end Sys2Proof

/-! PROOFS. Frames: what every instruction leaves alone, whether it completes or raises (R15, R21, R24, R31, R176), and the bad
register index (R74). -/

namespace Sys2Proof.Machine

open Sys2Proof.Claims

/-! ### What an instruction that completes leaves alone -/

theorem Completes.reg_eq {i : Instr} {s t : State} {j : Fin 8} (h : Completes i s t) (hj : writesReg i j = false) :
    t.reg j = s.reg j := by
  have named {r : Byte} {k : Fin 8} (hr : regIndex r = .ok k) (hn : (r.toNat == j.val) = false) : j ≠ k := by
    rintro rfl
    simp [toNat_of_regIndex hr] at hn
  cases h with
  | halt | print | compare | jump => rfl
  | jumpIfNotEqual | jumpIfEqual => split <;> rfl
  | loadImmediate hr | multiply hr | add hr => exact State.reg_setReg_other s _ (named hr hj)
  | push | call =>
    have h7 : j ≠ spIndex := by simpa [writesReg] using hj
    simp [State.decSp_reg, h7]
  | ret =>
    have h7 : j ≠ spIndex := by simpa [writesReg] using hj
    simp [State.incSp_reg, h7]
  | pop hr =>
    rw [writesReg, Bool.or_eq_false_iff] at hj
    have h7 : j ≠ spIndex := by simpa using hj.2
    simp [State.incSp_reg, h7, State.reg_setReg_other s _ (named hr hj.1)]

theorem Completes.read_eq {i : Instr} {s t : State} {a : Nat} (h : Completes i s t) (ha : storesTo i s ≠ some a) :
    Memory.read t.mem a = Memory.read s.mem a := by
  cases h with
  | push | call => exact Memory.read_write_other s.mem _ fun e => ha (congrArg some e.symm)
  | jumpIfNotEqual | jumpIfEqual => split <;> rfl
  | halt | loadImmediate | pop | multiply | add | print | ret | compare | jump => rfl

/-- The error record and the input samples: no instruction has access to them. -/
theorem Completes.record_eq {i : Instr} {s t : State} (h : Completes i s t) :
    t.errCause = s.errCause ∧ t.errPc = s.errPc ∧ t.errInfo = s.errInfo ∧ t.inputs = s.inputs := by
  cases h with
  | jumpIfNotEqual | jumpIfEqual => split <;> exact ⟨rfl, rfl, rfl, rfl⟩
  | halt | loadImmediate | push | pop | multiply | add | print | call | ret | compare | jump => exact ⟨rfl, rfl, rfl, rfl⟩

theorem eq_regByte_of_regIndex {r : Byte} {i : Fin 8} (h : regIndex r = .ok i) : r = regByte i := by
  have hi : r.toNat = i.val := toNat_of_regIndex h
  rw [regByte, ← hi, BitVec.ofNat_toNat, BitVec.setWidth_eq]

/-- The output moves only by a PRINT, which appends its register and shows it. -/
theorem Completes.output_cases {i : Instr} {s t : State} (h : Completes i s t) :
    (t.out = s.out ∧ t.outPort = s.outPort) ∨
      ∃ j : Fin 8, i = .print (regByte j) ∧ t.out = s.out ++ [s.reg j] ∧ t.outPort = some (s.reg j) := by
  cases h with
  | print hr => exact .inr ⟨_, congrArg _ (eq_regByte_of_regIndex hr), rfl, rfl⟩
  | jumpIfNotEqual | jumpIfEqual => left; split <;> exact ⟨rfl, rfl⟩
  | halt | loadImmediate | push | pop | multiply | add | call | ret | compare | jump => exact .inl ⟨rfl, rfl⟩

/-- Settles O26: fault entry writes no register, a completed instruction those of its row. -/
theorem onlyTheListedRegistersChange : Obligations.OnlyTheListedRegistersChange := by
  intro i s t j h hj
  rcases exec_next_cases h with hc | ⟨f, _, rfl⟩
  · exact hc.reg_eq hj
  · rfl

/-- Settles O27: fault entry writes no memory, a completed instruction at most its one cell. -/
theorem onlyTheStackCellIsStored : Obligations.OnlyTheStackCellIsStored := by
  intro i s t h a ha
  rcases exec_next_cases h with hc | ⟨f, _, rfl⟩
  · exact hc.read_eq ha
  · rfl

/-- Settles O29, for the completed instructions, as fault entry leaves Error. -/
theorem statusAndOutputFrame : Obligations.StatusAndOutputFrame := by
  intro i s t hs h hne
  rcases exec_next_cases h with hc | ⟨f, _, rfl⟩
  · obtain ⟨hcause, hpc, hinfo, hin⟩ := hc.record_eq
    refine ⟨hcause, hpc, hinfo, hin, hc.st hs, fun hp => ?_⟩
    exact hc.output_cases.resolve_right fun ⟨j, hi, _⟩ => hp _ hi
  · exact absurd (State.raise_st s f) hne

/-! ### The bad register index -/

/-- No other check raises OutOfBounds(REG). -/
theorem Raises.wellFormed_eq_false {i : Instr} {s : State} {r : Byte} (h : Raises i s (.outOfBoundsReg r)) :
    i.wellFormed = false := by
  cases h with
  | badIndex _ hw _ => exact hw

theorem CoreFault.eq_outOfBoundsReg_of_code {f : CoreFault} (h : f.code = 3) : ∃ r, f = .outOfBoundsReg r := by
  cases f with
  | outOfBoundsReg r => exact ⟨r, rfl⟩
  | invalidOpcode | outOfBoundsMem | stackUnderflow => simp [CoreFault.code] at h

/-- Settles O11: an ill-formed instruction cannot complete, and a well-formed one that raises has another code. -/
theorem illFormedInstructionsRaiseTheFirstBadIndex : Obligations.IllFormedInstructionsRaiseTheFirstBadIndex := by
  intro i s hs
  refine ⟨fun hw => ?_, fun hw r e => ?_⟩
  · rcases exec_cases i s with ⟨t, hc, _⟩ | ⟨f, hf, e⟩
    · simp [hc.wellFormed] at hw
    · rcases hf.badIndex_or_wellFormed with ⟨r, rfl, hr⟩ | hw'
      · exact ⟨r, hr, e⟩
      · simp [hw'] at hw
  · rcases exec_next_cases e with hc | ⟨f, hf, e'⟩
    · exact hc.st_ne_error hs rfl
    · obtain ⟨r', rfl⟩ := CoreFault.eq_outOfBoundsReg_of_code (congrArg State.errCause e').symm
      simp [hf.wellFormed_eq_false] at hw

end Sys2Proof.Machine

/-! PROOFS. The step of a Running core: everything its fetch can answer and every fault it can raise (R70 to R73, R171, R178). -/

namespace Sys2Proof.Machine

open Sys2Proof.Claims

/-! ### Fetch -/

/-- Everything the fetch unit can answer (R71 to R73). -/
inductive Fetched (c : OpcodeMap) (s : State) : Except CoreFault Instr → Prop
  | above (hpc : memSize ≤ s.pc.toNat) : Fetched c s (.error (.outOfBoundsMem s.pc))
  | miss (hpc : s.pc.toNat < memSize) (hl : c.lookup (Memory.read s.mem s.pc.toNat) = none) :
      Fetched c s (.error (.invalidOpcode (Memory.read s.mem s.pc.toNat)))
  | pastTop {m : Mnemonic} (hpc : s.pc.toNat < memSize) (hl : c.lookup (Memory.read s.mem s.pc.toNat) = some m)
      (hk : memSize ≤ s.pc.toNat + m.format.operands) : Fetched c s (.error (.outOfBoundsMem 256))
  | instr {m : Mnemonic} (hl : c.lookup (Memory.read s.mem s.pc.toNat) = some m)
      (hk : s.pc.toNat + m.format.operands < memSize) :
      Fetched c s (.ok (m.build (Memory.read s.mem (s.pc.toNat + 1)) (Memory.read s.mem (s.pc.toNat + 2))))

theorem State.fetch_of_fits {c : OpcodeMap} {s : State} {m : Mnemonic}
    (hl : c.lookup (Memory.read s.mem s.pc.toNat) = some m) (hk : s.pc.toNat + m.format.operands < memSize) :
    s.fetch c = .ok (m.build (Memory.read s.mem (s.pc.toNat + 1)) (Memory.read s.mem (s.pc.toNat + 2))) := by
  have byte (k : Nat) (hle : k ≤ m.format.operands) : s.fetchByte k = some (Memory.read s.mem (s.pc.toNat + k)) :=
    State.fetchByte_some (by omega)
  have h0 : s.fetchByte 0 = some (Memory.read s.mem s.pc.toNat) := byte 0 (Nat.zero_le _)
  cases m with
  | halt | ret => simp [State.fetch, OpcodeMap.decodeFrom, h0, hl, Mnemonic.format, Mnemonic.build]
  | push | pop | print | call | jump | jumpIfNotEqual | jumpIfEqual =>
    simp [State.fetch, OpcodeMap.decodeFrom, h0, hl, Mnemonic.format, Mnemonic.build, byte 1 (by decide)]
  | loadImmediate | multiply | add | compare =>
    simp [State.fetch, OpcodeMap.decodeFrom, h0, hl, Mnemonic.format, Mnemonic.build, byte 1 (by decide), byte 2 (by decide)]

theorem State.fetched (c : OpcodeMap) (s : State) : Fetched c s (s.fetch c) := by
  by_cases hpc : s.pc.toNat < memSize
  · cases hl : c.lookup (Memory.read s.mem s.pc.toNat) with
    | none => exact State.fetch_miss hpc hl ▸ .miss hpc hl
    | some m =>
      by_cases hk : s.pc.toNat + m.format.operands < memSize
      · exact State.fetch_of_fits hl hk ▸ .instr hl hk
      · have hk' : memSize ≤ s.pc.toNat + m.format.operands := Nat.not_lt.1 hk
        exact State.fetch_past_top hl (Nat.le_of_lt_succ hpc) hk' ▸ .pastTop hpc hl hk'
  · exact State.fetch_above c (Nat.not_lt.1 hpc) ▸ .above (Nat.not_lt.1 hpc)

/-- The fetch unit reads the bytes from `pc` up to the top of memory. -/
theorem State.fetchByte_eq_codeBytes (s : State) : s.fetchByte = fun k => (codeBytes s)[k]? := by
  funext k
  by_cases hk : s.pc.toNat + k < memSize
  · have hk' : k < 256 - s.pc.toNat := Nat.lt_sub_of_add_lt (Nat.add_comm .. ▸ hk)
    simp [State.fetchByte_some hk, codeBytes, List.getElem?_range hk']
  · have hk' : 256 - s.pc.toNat ≤ k := Nat.sub_le_of_le_add (Nat.add_comm .. ▸ Nat.not_lt.1 hk)
    simp [State.fetchByte_none (Nat.not_lt.1 hk), codeBytes, hk']

theorem State.fetch_eq_ok_iff {c : OpcodeMap} {s : State} {i : Instr} :
    s.fetch c = .ok i ↔ c.decode (codeBytes s) = .instr i := by
  rw [State.fetch, OpcodeMap.decode, ← State.fetchByte_eq_codeBytes]
  cases c.decodeFrom s.fetchByte <;> simp

/-- What is fetched fits in memory, and its operands are the bytes after its opcode. -/
theorem State.fetch_ok_cases {c : OpcodeMap} {s : State} {i : Instr} (h : s.fetch c = .ok i) :
    ∃ m : Mnemonic, c.lookup (Memory.read s.mem s.pc.toNat) = some m ∧ s.pc.toNat + m.format.operands < memSize ∧
      i = m.build (Memory.read s.mem (s.pc.toNat + 1)) (Memory.read s.mem (s.pc.toNat + 2)) := by
  have hF := s.fetched c
  rw [h] at hF
  cases hF with
  | instr hl hk => exact ⟨_, hl, hk, rfl⟩

/-! ### The step of a Running core -/

theorem stepWith_of_fetch_ok {c : OpcodeMap} {s : State} {i : Instr} (hr : Ready s) (hf : s.fetch c = .ok i) :
    stepWith c s = exec i s.beginStep := by
  obtain ⟨hs, hrst⟩ := hr
  have hb : s.beginStep.fetch c = .ok i := hf
  simp [stepWith, runStep, hs, hrst, hb]

/-- Settles O6: the fetch answers what the decoder does. -/
theorem stepRunsTheDecodedInstruction : Obligations.StepRunsTheDecodedInstruction :=
  ⟨fun _ _ _ hr hd => stepWith_of_fetch_ok hr (State.fetch_eq_ok_iff.2 hd),
    fun _ _ hr hd => stepWith_of_fetch_ok hr (State.fetch_eq_ok_iff.2 hd)⟩

/-- Settles O10, from the number of operands of each format. -/
theorem operandFetchPastTheTopReports256 : Obligations.OperandFetchPastTheTopReports256 := by
  refine fun c hc => ⟨fun m hm => topFault_of_operands hc m ?_, fun m hm => topFault_of_operands hc m ?_⟩
  · rw [hm]; decide
  · rcases hm with hm | hm <;> rw [hm] <;> decide

/-- `Faulting c s f`: the step of a Running `s` raises `f`, in the fetch or in the instruction's meaning. -/
inductive Faulting (c : OpcodeMap) (s : State) : CoreFault → Prop
  | fetch {f : CoreFault} (hf : s.fetch c = .error f) : Faulting c s f
  | exec {i : Instr} {f : CoreFault} (hf : s.fetch c = .ok i) (he : Raises i s.beginStep f) : Faulting c s f

/-- Everything the step of a Running core can do. -/
theorem stepWith_ready_cases (c : OpcodeMap) {s : State} (hr : Ready s) :
    (∃ i t, s.fetch c = .ok i ∧ Completes i s.beginStep t ∧ stepWith c s = .next t) ∨
      ∃ f, Faulting c s f ∧ stepWith c s = .next (s.beginStep.raise f) := by
  cases hf : s.fetch c with
  | error f => exact .inr ⟨f, .fetch hf, stepWith_of_fetch_error hr hf⟩
  | ok i =>
    rw [stepWith_of_fetch_ok hr hf]
    rcases exec_cases i s.beginStep with ⟨t, hc, e⟩ | ⟨f, he, e⟩
    · exact .inl ⟨i, t, rfl, hc, e⟩
    · exact .inr ⟨f, .exec hf he, e⟩

/-- `stepWith_ready_cases` for a given next state. -/
theorem stepWith_ready_next_cases {c : OpcodeMap} {s t : State} (hr : Ready s) (h : stepWith c s = .next t) :
    (∃ i, s.fetch c = .ok i ∧ Completes i s.beginStep t) ∨ ∃ f, Faulting c s f ∧ t = s.beginStep.raise f := by
  rcases stepWith_ready_cases c hr with ⟨i, u, hf, hc, e⟩ | ⟨f, hF, e⟩
  · cases e.symm.trans h; exact .inl ⟨i, hf, hc⟩
  · cases e.symm.trans h; exact .inr ⟨f, hF, rfl⟩

/-! ### What a fault's record says -/

/-- R171 to R175: what holds of the state in which a fault is raised. -/
def State.Explains (s : State) : CoreFault → Prop
  | .invalidOpcode op => op = Memory.read s.mem s.pc.toNat
  | .outOfBoundsMem a => (a = 0x1FF ∧ s.reg 7 = 0) ∨ (a = 256 ∧ 254 ≤ s.pc.toNat ∧ s.pc.toNat ≤ 255) ∨ (a = s.pc ∧ 255 < s.pc.toNat)
  | .outOfBoundsReg r => 7 < r.toNat ∧ ∃ k : Nat, 1 ≤ k ∧ k ≤ 2 ∧ r = Memory.read s.mem (s.pc.toNat + k)
  | .stackUnderflow sp => 0xF4 ≤ (s.reg 7).toNat ∧ sp = s.reg 7

theorem operands_le_two (f : Format) : f.operands ≤ 2 := by cases f <;> decide

theorem State.explains_of_fetch {c : OpcodeMap} {s : State} {f : CoreFault} (h : s.fetch c = .error f) : s.Explains f := by
  have hF := s.fetched c
  rw [h] at hF
  cases hF with
  | above hpc => exact .inr (.inr ⟨rfl, hpc⟩)
  | miss => rfl
  | @pastTop m hpc _ hk =>
    have hm := operands_le_two m.format
    have hle : s.pc.toNat < 256 := hpc
    have hge : 256 ≤ s.pc.toNat + m.format.operands := hk
    exact .inr (.inl ⟨rfl, by omega, by omega⟩)

/-- An operand byte of a fetched instruction is one of the two bytes after its opcode. -/
theorem operand_mem_of_fetch {c : OpcodeMap} {s : State} {i : Instr} {r : Byte} (h : s.fetch c = .ok i)
    (hr : r ∈ i.operandBytes) : ∃ k : Nat, 1 ≤ k ∧ k ≤ 2 ∧ r = Memory.read s.mem (s.pc.toNat + k) := by
  obtain ⟨m, _, _, rfl⟩ := State.fetch_ok_cases h
  rw [Mnemonic.operandBytes_build] at hr
  rcases List.mem_pair.1 (List.mem_of_mem_take hr) with e | e
  · exact ⟨1, by decide, by decide, e⟩
  · exact ⟨2, by decide, by decide, e⟩

theorem State.explains_of_raises {c : OpcodeMap} {s : State} {i : Instr} {f : CoreFault} (hf : s.fetch c = .ok i)
    (h : Raises i s.beginStep f) : s.Explains f := by
  cases h with
  | badIndex hr _ hfind => exact ⟨hr, operand_mem_of_fetch hf (List.mem_of_find?_eq_some hfind)⟩
  | push _ hs | callPush _ _ hs => exact .inl ⟨rfl, hs⟩
  | pop _ hs | ret hs => exact ⟨hs, rfl⟩
  | callReturn hr hp =>
    obtain ⟨m, _, hk, hi⟩ := State.fetch_ok_cases hf
    have hm : m = .call := (m.mnemonic_build _ _).symm.trans (congrArg Instr.mnemonic hi.symm)
    subst hm
    have hfit : s.pc.toNat + 1 < 256 := hk
    have hret : 255 < s.pc.toNat + 2 := hp
    have htop : s.pc.toNat = 254 := by omega
    exact .inr (.inl ⟨by simp [htop], by omega, by omega⟩)

theorem Faulting.explained {c : OpcodeMap} {s : State} {f : CoreFault} (h : Faulting c s f) : s.Explains f := by
  cases h with
  | fetch hf => exact s.explains_of_fetch hf
  | exec hf he => exact s.explains_of_raises hf he

/-- From a Running core Error is entered by a fault alone. -/
theorem faulting_of_step_error {c : OpcodeMap} {s t : State} (hr : Ready s) (h : stepWith c s = .next t)
    (ht : t.st = .error) : ∃ f, s.Explains f ∧ t = s.beginStep.raise f := by
  rcases stepWith_ready_next_cases hr h with ⟨i, _, hc⟩ | ⟨f, hF, rfl⟩
  · exact absurd ht (hc.st_ne_error hr.1)
  · exact ⟨f, hF.explained, rfl⟩

/-- Settles O30: fault entry with a fault that the state explains. -/
theorem faultEntryChangesOnlyStAndTheRecord : Obligations.FaultEntryChangesOnlyStAndTheRecord := by
  intro c s t hr h ht
  obtain ⟨f, hf, rfl⟩ := faulting_of_step_error hr h ht
  refine ⟨f.code, f.info, rfl, ?_⟩
  cases f with
  | invalidOpcode op => exact .inl ⟨rfl, congrArg (BitVec.zeroExtend 9) hf⟩
  | outOfBoundsMem a => exact .inr (.inl ⟨rfl, hf⟩)
  | outOfBoundsReg r =>
    obtain ⟨hr7, k, hk1, hk2, rfl⟩ := hf
    exact .inr (.inr (.inl ⟨rfl, k, hk1, hk2, hr7, rfl⟩))
  | stackUnderflow sp => exact .inr (.inr (.inr ⟨rfl, hf.1, congrArg (BitVec.zeroExtend 9) hf.2⟩))

theorem eq_256_of_explains {s : State} {a : Word9} (hpc : s.pc.toNat ≤ 256) (h : s.Explains (.outOfBoundsMem a)) :
    a = 256 ∨ a = 0x1FF := by
  rcases h with ⟨rfl, _⟩ | ⟨rfl, _⟩ | ⟨rfl, hgt⟩
  · exact .inr rfl
  · exact .inl rfl
  · exact .inl (BitVec.eq_of_toNat_eq (Nat.le_antisymm hpc hgt))

/-- Settles O32: of the addresses that a fault can name, a legal `pc` leaves two. -/
theorem outOfBoundsMemReports256Or1FF : Obligations.OutOfBoundsMemReports256Or1FF := by
  intro c s t hr hpc h ht hcause
  obtain ⟨f, hf, rfl⟩ := faulting_of_step_error hr h ht
  cases f with
  | outOfBoundsMem a => exact eq_256_of_explains hpc hf
  | invalidOpcode | outOfBoundsReg | stackUnderflow => simp [CoreFault.code] at hcause

end Sys2Proof.Machine

/-! PROOFS. The step boundary and what every step keeps: the FSM, the host's ports, the output, and the invariant (R16, R22, R79,
R82, R150 to R157, R171, R200). -/

namespace Sys2Proof.Machine

open Sys2Proof.Claims

/-! ### Reset, Idle and the host -/

/-- Settles O1: the reset state's fields, and the empty memory list. -/
theorem resetGivesTheListedValues : Obligations.ResetGivesTheListedValues :=
  ⟨by decide, rfl, rfl, fun _ => rfl, rfl, rfl, rfl, rfl, rfl, rfl⟩

/-- Settles O35: R200's boundary, in any state. -/
theorem resetFromAnyStateGivesTheResetState : Obligations.ResetFromAnyStateGivesTheResetState :=
  fun c _ hr => stepWith_of_rst c hr

theorem stepWith_of_idle (c : OpcodeMap) {s : State} (hs : s.st = .idle) (hr : s.sampled.rst = false) :
    stepWith c s = .next (s.beginStep.idleBoundary s.sampled) := by
  simp [stepWith, hr, hs]

theorem stepWith_of_halted (c : OpcodeMap) {s : State} (hs : s.st = .halted) (hr : s.sampled.rst = false) :
    stepWith c s = .next s.beginStep := by
  simp [stepWith, hr, hs]

/-- Settles O36, from what an Idle boundary is equal to. -/
theorem idleObeysTheLoadPortAndStart : Obligations.IdleObeysTheLoadPortAndStart := by
  intro c s hs hr
  rw [stepWith_of_idle c hs hr, State.idleBoundary_eq hs]

/-- Settles O37: outside Idle a sample with `rst` low is used up and not looked at. -/
theorem hostCannotActOutsideIdle : Obligations.HostCannotActOutsideIdle := by
  intro c s p q later hs hp hq
  simp only [stepWith, State.sampled, List.headD_cons, hp, hq]
  cases hst : s.st with
  | idle => exact absurd hst hs
  | running | halted | error => rfl

/-- HALT makes no check. -/
theorem not_raises_halt (s : State) (f : CoreFault) : ¬ Raises .halt s f := by
  intro h
  cases h with
  | badIndex _ hw _ => cases hw

/-- R79: the step of a Running core leaves it Running, Halted or in Error. -/
theorem stepWith_st_of_ready {c : OpcodeMap} {s t : State} (hr : Ready s) (h : stepWith c s = .next t) :
    t.st = .running ∨ t.st = .halted ∨ t.st = .error := by
  rcases stepWith_ready_next_cases hr h with ⟨i, _, hc⟩ | ⟨f, _, rfl⟩
  · rw [hc.st hr.1]
    split <;> simp
  · exact .inr (.inr rfl)

/-- R79: it is Halted exactly by a HALT at `pc`. -/
theorem stepWith_halted_iff {c : OpcodeMap} {s t : State} (hr : Ready s) (h : stepWith c s = .next t) :
    t.st = .halted ↔ c.decode (codeBytes s) = .instr .halt := by
  rw [← State.fetch_eq_ok_iff]
  rcases stepWith_ready_next_cases hr h with ⟨i, hf, hc⟩ | ⟨f, hF, rfl⟩
  · rw [hc.st hr.1, hf]
    by_cases hi : i = .halt <;> simp [hi]
  · have hne : s.fetch c ≠ .ok .halt := by
      intro hf
      cases hF with
      | fetch hf' => simp [hf'] at hf
      | exec hf' he =>
        cases hf'.symm.trans hf
        exact not_raises_halt _ _ he
    simp [hne]

/-- Settles O34, for each state of the FSM from what a boundary does in it. -/
theorem fsmFollowsItsTransitionTable : Obligations.FsmFollowsItsTransitionTable := by
  intro c s t h
  refine ⟨fun hr => ?_, fun hr => ⟨fun hs => ?_, fun hs => stepWith_st_of_ready ⟨hs, hr⟩ h,
    fun hs => stepWith_halted_iff ⟨hs, hr⟩ h, fun hs => ?_, fun hs => ?_⟩⟩
  · cases (stepWith_of_rst c hr).symm.trans h; rfl
  · cases (stepWith_of_idle c hs hr).symm.trans h
    rw [State.idleBoundary_eq hs]
  · cases (stepWith_of_halted c hs hr).symm.trans h; rfl
  · cases (stepWith_of_error c hs hr).symm.trans h; rfl

/-- Settles O25: HALT passes every check, and a HALT byte inside memory is fetched whole. -/
theorem haltEndsTheRun : Obligations.HaltEndsTheRun := by
  refine ⟨fun s => rfl, fun c s hc hr hpc hop => ?_⟩
  have hl : c.lookup (Memory.read s.mem s.pc.toNat) = some .halt := (OpcodeMap.lookup_eq_some_iff hc).2 hop
  exact stepWith_of_fetch_ok hr (State.fetch_of_fits hl (Nat.lt_succ_of_le hpc))

/-! ### The output -/

theorem exec_output_cases {i : Instr} {s t : State} (h : exec i s = .next t) :
    (t.out = s.out ∧ t.outPort = s.outPort) ∨
      ∃ j : Fin 8, i = .print (regByte j) ∧ t.out = s.out ++ [s.reg j] ∧ t.outPort = some (s.reg j) := by
  rcases exec_next_cases h with hc | ⟨f, _, rfl⟩
  · exact hc.output_cases
  · exact .inl ⟨rfl, rfl⟩

/-- Settles O7: a boundary other than reset leaves the stream, or it runs an instruction, which appends at most one byte. -/
theorem everyStepHasANextState : Obligations.EveryStepHasANextState := by
  intro c s
  obtain ⟨t, e, hstep⟩ := stepWith_cases c s
  refine ⟨t, e, fun hr => ?_⟩
  cases hstep with
  | reset hr' => simp [hr] at hr'
  | idle _ hs => rw [State.idleBoundary_eq hs]; exact .inl ⟨rfl, rfl⟩
  | ran _ _ _ he => exact (exec_output_cases he).imp_right fun ⟨_, _, hout⟩ => ⟨_, hout⟩
  | faulted | ended => exact .inl ⟨rfl, rfl⟩

/-- Settles O46: the instruction that was run is the one the bytes at `pc` decode to. -/
theorem onlyPrintEmits : Obligations.OnlyPrintEmits := by
  intro c s t hr h
  rcases stepWith_ready_next_cases hr h with ⟨i, hf, hc⟩ | ⟨f, _, rfl⟩
  · refine hc.output_cases.imp_right ?_
    rintro ⟨j, rfl, hout⟩
    exact ⟨j, State.fetch_eq_ok_iff.1 hf, hout⟩
  · exact .inl ⟨rfl, rfl⟩

/-! ### The top cell -/

theorem toNat_sub_one {b : Byte} (h : b ≠ 0) : (b - 1).toNat = b.toNat - 1 := by bv_omega

/-- A push stores below its `x[7]`, which is at most 255. -/
theorem Completes.storesTo_ne_top {i : Instr} {s t : State} (h : Completes i s t) : storesTo i s ≠ some 255 := by
  cases h with
  | push _ hs | call _ _ hs =>
    intro e
    have htop : s.decSp.sp.toNat = 255 := Option.some.inj e
    rw [State.decSp_sp, toNat_sub_one hs] at htop
    have hlt : s.sp.toNat < 256 := s.sp.isLt
    omega
  | halt | loadImmediate | pop | multiply | add | print | ret | compare | jump | jumpIfNotEqual | jumpIfEqual =>
    exact nofun

/-- Settles O44: an instruction that completes does not store there, and fault entry stores nothing. -/
theorem noInstructionWritesTheTopCell : Obligations.NoInstructionWritesTheTopCell := by
  intro c s t hr h
  rcases stepWith_ready_next_cases hr h with ⟨i, _, hc⟩ | ⟨f, _, rfl⟩
  · exact hc.read_eq hc.storesTo_ne_top
  · rfl

/-! ### The invariant -/

theorem State.inv_reset (ps : List PortInput) : ({ State.reset with inputs := ps } : State).Inv where
  mem_wf := rfl
  pc_le := Nat.zero_le _
  fl_legal := rfl
  record_clear _ := ⟨rfl, rfl, rfl⟩
  record_legal h := nomatch h
  idle_fresh _ := ⟨rfl, rfl, rfl, rfl⟩
  port_last _ h := nomatch h

/-- Settles O39, for a host that presents nothing. -/
theorem invariantHoldsAtReset : Obligations.InvariantHoldsAtReset := State.inv_reset []

theorem Completes.mem_wf {i : Instr} {s t : State} (h : Completes i s t) (hm : Memory.wf s.mem = true) :
    Memory.wf t.mem = true := by
  cases h with
  | push | call => exact Memory.wf_write _ hm (byte_lt_memSize _)
  | jumpIfNotEqual | jumpIfEqual => split <;> exact hm
  | halt | loadImmediate | pop | multiply | add | print | ret | compare | jump => exact hm

theorem Completes.fl_legal {i : Instr} {s t : State} (h : Completes i s t) (hfl : legalFl s.fl = true) :
    legalFl t.fl = true := by
  by_cases hi : ∀ a b : Byte, i ≠ .compare a b
  · rwa [h.fl_eq hi]
  · push Not at hi
    obtain ⟨a, b, rfl⟩ := hi
    cases h with
    | @compare _ _ _ j k => rcases flOfLge_aluCmp (s.reg j) (s.reg k) with ⟨_, e⟩ | ⟨_, e⟩ | ⟨_, e⟩ <;> simp [legalFl, e]

theorem toNat_zeroExtend_byte (b : Byte) : (b.zeroExtend 9).toNat = b.toNat := by
  rw [BitVec.zeroExtend, BitVec.toNat_setWidth, Nat.mod_eq_of_lt (by omega)]

theorem toNat_zeroExtend_byte_le (b : Byte) : (b.zeroExtend 9).toNat ≤ 255 := by
  rw [toNat_zeroExtend_byte]
  exact Nat.le_of_lt_succ b.isLt

/-- R16: an instruction that fits in memory selects a next pc of at most 256. -/
theorem nextPc_le {i : Instr} {s : State} (h : s.pc.toNat + i.mnemonic.format.operands < memSize) :
    (nextPc i s).toNat ≤ 256 := by
  have redirected (b : Byte) : (b.zeroExtend 9).toNat ≤ 256 := Nat.le_succ_of_le (toNat_zeroExtend_byte_le b)
  have advanced {n : Nat} (hn : s.pc.toNat + n < 256) : (s.pc + BitVec.ofNat 9 (n + 1)).toNat ≤ 256 := by
    rw [BitVec.toNat_add, BitVec.toNat_ofNat]; omega
  cases i with
  | halt => exact h.le
  | push | pop | print => exact advanced h
  | loadImmediate | multiply | add | compare => exact advanced h
  | jump | call | ret => exact redirected _
  | jumpIfNotEqual | jumpIfEqual =>
    rw [nextPc]
    split
    · exact redirected _
    · exact advanced h

theorem State.Inv.completes {c : OpcodeMap} {s t : State} {i : Instr} (h : s.Inv) (hs : s.st = .running)
    (hf : s.fetch c = .ok i) (hc : Completes i s.beginStep t) : t.Inv := by
  have hne : t.st ≠ .error := hc.st_ne_error hs
  obtain ⟨hcause, hpc, hinfo, _⟩ := hc.record_eq
  obtain ⟨hcause', hpc', hinfo'⟩ := h.record_clear (by rw [hs]; decide)
  exact
    { mem_wf := hc.mem_wf h.mem_wf
      pc_le := by
        obtain ⟨m, _, hk, rfl⟩ := State.fetch_ok_cases hf
        rw [hc.pc_eq]
        exact nextPc_le (by rwa [Mnemonic.mnemonic_build])
      fl_legal := hc.fl_legal h.fl_legal
      record_clear := fun _ => ⟨hcause.trans hcause', hpc.trans hpc', hinfo.trans hinfo'⟩
      record_legal := fun e => absurd e hne
      idle_fresh := fun e => by
        have hst := hc.st hs
        rw [e] at hst
        split at hst <;> cases hst
      port_last := fun v hv => by
        rcases hc.output_cases with ⟨_, hp⟩ | ⟨j, rfl, hout, hp⟩
        · rw [hp] at hv; cases hv
        · rw [hp] at hv; cases hv
          exact ⟨by rw [hout, List.getLast?_concat], hc.st hs⟩ }

/-- R171: the record that a fault leaves is one of the table's. -/
theorem legalRecord_of_explains {s : State} {f : CoreFault} (hpc : s.pc.toNat ≤ 256) (hf : s.Explains f) :
    legalRecord f.code f.info = true := by
  cases f with
  | invalidOpcode op => exact decide_eq_true (toNat_zeroExtend_byte_le op)
  | outOfBoundsMem a => rcases eq_256_of_explains hpc hf with rfl | rfl <;> rfl
  | outOfBoundsReg r =>
    obtain ⟨hr, _⟩ := hf
    have hge : 8 ≤ (r.zeroExtend 9).toNat := by rwa [toNat_zeroExtend_byte]
    exact Bool.and_eq_true_iff.2 ⟨decide_eq_true hge, decide_eq_true (toNat_zeroExtend_byte_le r)⟩
  | stackUnderflow sp =>
    obtain ⟨hsp, rfl⟩ := hf
    have hge : 0xF4 ≤ ((s.reg 7).zeroExtend 9).toNat := by rwa [toNat_zeroExtend_byte]
    exact Bool.and_eq_true_iff.2 ⟨decide_eq_true hge, decide_eq_true (toNat_zeroExtend_byte_le _)⟩

theorem State.Inv.raise {s : State} {f : CoreFault} (h : s.Inv) (hf : s.Explains f) : (s.beginStep.raise f).Inv where
  mem_wf := h.mem_wf
  pc_le := h.pc_le
  fl_legal := h.fl_legal
  record_clear e := absurd rfl e
  record_legal _ := ⟨legalRecord_of_explains h.pc_le hf, rfl⟩
  idle_fresh e := nomatch e
  port_last _ e := nomatch e

theorem State.Inv.beginStep {s : State} (h : s.Inv) : s.beginStep.Inv where
  mem_wf := h.mem_wf
  pc_le := h.pc_le
  fl_legal := h.fl_legal
  record_clear := h.record_clear
  record_legal := h.record_legal
  idle_fresh := h.idle_fresh
  port_last _ e := nomatch e

theorem State.Inv.idleBoundary {s : State} (h : s.Inv) (hs : s.st = .idle) :
    (s.beginStep.idleBoundary s.sampled).Inv := by
  rw [State.idleBoundary_eq hs]
  exact
    { mem_wf := by
        split
        · exact Memory.wf_write _ h.mem_wf (byte_lt_memSize _)
        · exact h.mem_wf
      pc_le := h.pc_le
      fl_legal := h.fl_legal
      record_clear := fun _ => h.record_clear (by rw [hs]; decide)
      record_legal := fun e => by
        have e' : (if s.sampled.start then RunState.running else .idle) = .error := e
        split at e' <;> cases e'
      idle_fresh := fun _ => h.idle_fresh hs
      port_last := fun _ e => nomatch e }

/-- Settles O40, by what the boundary did. -/
theorem everyStepKeepsTheInvariant : Obligations.EveryStepKeepsTheInvariant := by
  intro c s t h e
  cases stepWith_next_cases e with
  | reset => exact State.inv_reset _
  | idle _ hs => exact h.idleBoundary hs
  | ran hr hs hf he =>
    rcases exec_next_cases he with hc | ⟨f, hfault, rfl⟩
    · exact h.completes hs hf hc
    · exact h.raise (s.explains_of_raises hf hfault)
  | faulted _ _ hf => exact h.raise (s.explains_of_fetch hf)
  | ended => exact h.beginStep

theorem runWith_of_inv (c : OpcodeMap) (n : Nat) {s : State} (h : s.Inv) : ∃ t, runWith c n s = .next t ∧ t.Inv := by
  induction n generalizing s with
  | zero => exact ⟨s, rfl, h⟩
  | succ n ih =>
    obtain ⟨u, e, _⟩ := stepWith_cases c s
    rw [runWith_succ_of_next n e]
    exact ih (everyStepKeepsTheInvariant c s u h e)

/-- Settles O41, by induction on the number of boundaries. -/
theorem everyReachableStateMeetsTheInvariant : Obligations.EveryReachableStateMeetsTheInvariant :=
  fun c ps n => runWith_of_inv c n (State.inv_reset ps)

end Sys2Proof.Machine

/-! PROOFS. What PUSH, POP, COMPARE, CALL, RETURN and the conditional jumps do (42_stack.md, 43_alu.md, 44_control_transfer.md),
and the complete priority of faults (R178). -/

namespace Sys2Proof.Machine

open Sys2Proof.Claims

/-! ### The stack instructions -/

theorem State.sp_setReg_other (s : State) {i : Fin 8} (v : Byte) (h : i ≠ 7) : (s.setReg i v).sp = s.sp :=
  State.reg_setReg_other s v h.symm

theorem State.setReg_setReg (s : State) (i : Fin 8) (v w : Byte) : (s.setReg i v).setReg i w = s.setReg i w := by
  simp [State.setReg]

theorem State.toNat_decSp_sp {s : State} (hs : s.reg 7 ≠ 0) : s.decSp.sp.toNat = (s.reg 7).toNat - 1 := by
  rw [State.decSp_sp]
  exact toNat_sub_one hs

theorem exec_push_regByte (i : Fin 8) {s : State} (hs : s.reg 7 ≠ 0) : exec (.push (regByte i)) s =
    .next ((s.decSp.setMem ((s.reg 7).toNat - 1) (if i = 7 then s.reg 7 - 1 else s.reg i)).advance 1) := by
  rw [(Completes.push (regIndex_regByte i) hs).exec_eq, State.toNat_decSp_sp hs, State.decSp_reg]
  rfl

/-- Settles O15: PUSH by whether `x[7]` is 0, then the bad index. -/
theorem pushDecrementsThenStores : Obligations.PushDecrementsThenStores :=
  ⟨fun i _ hs => exec_push_regByte i hs, fun i _ hs => (Raises.push (regIndex_regByte i) hs).exec_eq,
    fun _ s hr => exec_of_first_index_above s rfl hr⟩

theorem exec_pop_regByte (i : Fin 8) {s : State} (hs : (s.reg 7).toNat < 0xF4) : exec (.pop (regByte i)) s =
    .next ((s.setReg i (Memory.read s.mem (s.reg 7).toNat)).incSp.advance 1) :=
  (Completes.pop (regIndex_regByte i) hs).exec_eq

/-- The loaded register and the stack pointer are two registers. -/
theorem exec_pop_other {i : Fin 8} {s : State} (hs : (s.reg 7).toNat < 0xF4) (hi : i ≠ 7) : exec (.pop (regByte i)) s =
    .next (((s.setReg i (Memory.read s.mem (s.reg 7).toNat)).setReg 7 (s.reg 7 + 1)).advance 1) := by
  rw [exec_pop_regByte i hs, State.incSp, State.sp_setReg_other s _ hi]
  rfl

theorem State.incSp_setReg_sp (s : State) (v : Byte) : (s.setReg 7 v).incSp = s.setReg 7 (v + 1) := by
  rw [State.incSp, State.sp, State.reg_setReg_same, State.setReg_setReg]

/-- The increment is of the loaded byte (D15). -/
theorem exec_pop_seven {s : State} (hs : (s.reg 7).toNat < 0xF4) : exec (.pop 7) s =
    .next ((s.setReg 7 (Memory.read s.mem (s.reg 7).toNat + 1)).advance 1) := by
  rw [← State.incSp_setReg_sp]
  exact exec_pop_regByte 7 hs

/-- Settles O16: POP into another register, into register 7, on an empty stack, and the bad index. -/
theorem popLoadsThenIncrements : Obligations.PopLoadsThenIncrements :=
  ⟨fun _ _ => exec_pop_other, fun _ => exec_pop_seven, fun i _ hs => (Raises.pop (regIndex_regByte i) hs).exec_eq,
    fun _ s hr => exec_of_first_index_above s rfl hr⟩

/-! ### COMPARE -/

theorem flOfLge_aluCmp_eq (p q : Byte) : flOfLge (aluCmp p q) =
    if p.toNat = q.toNat then 0x01 else if p.toNat < q.toNat then 0x04 else 0x02 := by
  unfold aluCmp
  split_ifs <;> rfl

theorem exec_compare_regByte (i j : Fin 8) (s : State) : exec (.compare (regByte i) (regByte j)) s =
    .next ((s.setFl (flOfLge (aluCmp (s.reg i) (s.reg j)))).advance 2) :=
  (Completes.compare (regIndex_regByte i) (regIndex_regByte j)).exec_eq

/-- Settles O19: COMPARE of two registers, then the first bad index. -/
theorem compareSetsExactlyOneFlag : Obligations.CompareSetsExactlyOneFlag := by
  refine ⟨fun i j s => ?_, fun _ _ s ha => exec_of_first_index_above s rfl ha,
    fun _ _ s hb => exec_of_second_index_above s rfl rfl hb⟩
  rw [exec_compare_regByte, flOfLge_aluCmp_eq]
  rfl

/-! ### CALL and RETURN -/

theorem exec_call_regByte (i : Fin 8) {s : State} (hp : s.pc.toNat ≤ 253) (hs : s.reg 7 ≠ 0) : exec (.call (regByte i)) s =
    .next ((s.decSp.setMem ((s.reg 7).toNat - 1) (BitVec.ofNat 8 (s.pc.toNat + 2))).redirect
      (if i = 7 then s.reg 7 - 1 else s.reg i)) := by
  rw [(Completes.call (regIndex_regByte i) (Nat.add_le_add_right hp 2) hs).exec_eq, State.toNat_decSp_sp hs, State.decSp_reg]
  rfl

/-- D10: the return address of a CALL at 254 is 256. -/
theorem exec_call_at_254 (i : Fin 8) {s : State} (hp : s.pc.toNat = 254) :
    exec (.call (regByte i)) s = .next (s.raise (.outOfBoundsMem 256)) := by
  rw [(Raises.callReturn (regIndex_regByte i) (by omega)).exec_eq, hp]
  rfl

/-- Settles O20: CALL by its checks in order. -/
theorem callPushesTheReturnAddress : Obligations.CallPushesTheReturnAddress :=
  ⟨fun i _ hp hs => exec_call_regByte i hp hs, fun i _ hp => exec_call_at_254 i hp,
    fun i _ hp hs => (Raises.callPush (regIndex_regByte i) (Nat.add_le_add_right hp 2) hs).exec_eq,
    fun _ s hr => exec_of_first_index_above s rfl hr⟩

theorem exec_ret {s : State} (hs : (s.reg 7).toNat < 0xF4) :
    exec .ret s = .next ((s.redirect (Memory.read s.mem (s.reg 7).toNat)).incSp) :=
  (Completes.ret hs).exec_eq

/-- Settles O21: RETURN by the pop check. -/
theorem returnPopsThePc : Obligations.ReturnPopsThePc :=
  ⟨fun _ hs => exec_ret hs, fun _ hs => (Raises.ret hs).exec_eq⟩

/-! ### The conditional jumps -/

theorem exec_jumpIfNotEqual_regByte (i : Fin 8) (s : State) : exec (.jumpIfNotEqual (regByte i)) s =
    .next (if flagE s.fl then s.advance 1 else s.redirect (s.reg i)) :=
  (Completes.jumpIfNotEqual (regIndex_regByte i)).exec_eq

theorem exec_jumpIfEqual_regByte (i : Fin 8) (s : State) : exec (.jumpIfEqual (regByte i)) s =
    .next (if flagE s.fl then s.redirect (s.reg i) else s.advance 1) :=
  (Completes.jumpIfEqual (regIndex_regByte i)).exec_eq

/-- Settles O23: the two values of FL bit 0, then the bad index. -/
theorem jumpIfNotEqualTestsTheEqualBit : Obligations.JumpIfNotEqualTestsTheEqualBit := by
  refine ⟨fun i s hfl => ?_, fun i s hfl => ?_, fun _ s hr => exec_of_first_index_above s rfl hr⟩ <;>
    rw [exec_jumpIfNotEqual_regByte, flagE, hfl] <;> rfl

/-- Settles O24: the two values of FL bit 0, then the bad index. -/
theorem jumpIfEqualTestsTheEqualBit : Obligations.JumpIfEqualTestsTheEqualBit := by
  refine ⟨fun i s hfl => ?_, fun i s hfl => ?_, fun _ s hr => exec_of_first_index_above s rfl hr⟩ <;>
    rw [exec_jumpIfEqual_regByte, flagE, hfl] <;> rfl

theorem flagE_compare (p q : Byte) : flagE (flOfLge (aluCmp p q)) = true ↔ p = q := by
  rw [flOfLge_aluCmp_eq, ← BitVec.toNat_inj]
  split_ifs <;> simp [flagE, *]

/-- Settles O47: COMPARE leaves in FL bit 0 whether its operands are equal, and changes no register. -/
theorem exactlyOneConditionalJumpIsTaken : Obligations.ExactlyOneConditionalJumpIsTaken := by
  intro i j k s
  refine ⟨_, _, _, exec_compare_regByte i j s, exec_jumpIfEqual_regByte k _, exec_jumpIfNotEqual_regByte k _, ?_⟩
  have hfive : s.pc + 3#9 + 2#9 = s.pc + 5#9 := by bv_omega
  have htaken := flagE_compare (s.reg i) (s.reg j)
  by_cases he : s.reg i = s.reg j <;> simp only [he, iff_true, iff_false] at htaken <;> simp [he, htaken, hfive]

/-! ### The first fault -/

/-- The rows of `firstFault` (R178) after the fetch, for the entry that was fetched. -/
def checkFault (m : Mnemonic) (pc : Nat) (o1 o2 sp : Byte) : Option CoreFault :=
  if m.format ≠ .z ∧ 7 < o1.toNat then some (.outOfBoundsReg o1)
  else if m.format = .rr ∧ 7 < o2.toNat then some (.outOfBoundsReg o2)
  else if m = .call ∧ pc + 2 = 256 then some (.outOfBoundsMem 256)
  else if (m = .push ∨ m = .call) ∧ sp = 0 then some (.outOfBoundsMem 0x1FF)
  else if (m = .pop ∨ m = .ret) ∧ 0xF4 ≤ sp.toNat then some (.stackUnderflow sp)
  else none

theorem code_eq_iff {c : OpcodeMap} (hc : c.Distinct) {m n : Mnemonic} : c.code m = c.code n ↔ m = n :=
  ⟨OpcodeMap.code_injective hc, congrArg c.code⟩

/-- Each parameter of R6 as the code of its entry. -/
theorem field_eq_code (c : OpcodeMap) :
    c.halt = c.code .halt ∧ c.loadImmediate = c.code .loadImmediate ∧ c.push = c.code .push ∧ c.pop = c.code .pop ∧
      c.multiply = c.code .multiply ∧ c.add = c.code .add ∧ c.print = c.code .print ∧ c.call = c.code .call ∧
      c.ret = c.code .ret ∧ c.compare = c.code .compare ∧ c.jump = c.code .jump ∧
      c.jumpIfNotEqual = c.code .jumpIfNotEqual ∧ c.jumpIfEqual = c.code .jumpIfEqual :=
  ⟨rfl, rfl, rfl, rfl, rfl, rfl, rfl, rfl, rfl, rfl, rfl, rfl, rfl⟩

/-- Under distinct opcodes the table's tests of the byte are tests of the entry, and of its format. -/
theorem firstFault_of_entry {c : OpcodeMap} (hc : c.Distinct) {s : State} {m : Mnemonic} (hpc : s.pc.toNat < memSize)
    (hop : Memory.read s.mem s.pc.toNat = c.code m) :
    firstFault c s = if memSize ≤ s.pc.toNat + m.format.operands then some (.outOfBoundsMem 256)
      else checkFault m s.pc.toNat (Memory.read s.mem (s.pc.toNat + 1)) (Memory.read s.mem (s.pc.toNat + 2)) s.sp := by
  have hpc' : ¬ 255 < s.pc.toNat := Nat.not_lt.2 (Nat.le_of_lt_succ hpc)
  have hsp : s.x[7] = s.sp := rfl
  simp only [firstFault, checkFault, field_eq_code, hop, ne_eq, code_eq_iff hc, List.mem_cons, List.not_mem_nil, hpc', hsp,
    memSize]
  cases m with
  | halt | ret => simpa [Mnemonic.format, Format.operands] using hpc
  | push | pop | print | call | jump | jumpIfNotEqual | jumpIfEqual => simp [Mnemonic.format, Format.operands]
  | loadImmediate | multiply | add | compare =>
    have htwo : 255 < s.pc.toNat + 2 ↔ 254 ≤ s.pc.toNat := by omega
    by_cases hone : 255 ≤ s.pc.toNat
    · simp [Mnemonic.format, Format.operands, hone, Nat.le_of_succ_le hone]
    · simp [Mnemonic.format, Format.operands, hone, htwo]

theorem firstFault_of_fetch_error {c : OpcodeMap} (hc : c.Distinct) {s : State} {f : CoreFault}
    (h : s.fetch c = .error f) : firstFault c s = some f := by
  have hF := s.fetched c
  rw [h] at hF
  cases hF with
  | above hpc => exact if_pos hpc
  | miss hpc hl =>
    have hpc' : ¬ 255 < s.pc.toNat := Nat.not_lt.2 (Nat.le_of_lt_succ hpc)
    exact (if_neg hpc').trans (if_pos (OpcodeMap.lookup_ne_none_iff_mem.not.1 (not_not.2 hl)))
  | pastTop hpc hl hk => rw [firstFault_of_entry hc hpc (OpcodeMap.code_of_lookup hl).symm, if_pos hk]

theorem firstFault_of_fetch_ok {c : OpcodeMap} (hc : c.Distinct) {s : State} {m : Mnemonic}
    (hl : c.lookup (Memory.read s.mem s.pc.toNat) = some m) (hk : s.pc.toNat + m.format.operands < memSize) :
    firstFault c s =
      checkFault m s.pc.toNat (Memory.read s.mem (s.pc.toNat + 1)) (Memory.read s.mem (s.pc.toNat + 2)) s.sp := by
  rw [firstFault_of_entry hc (Nat.lt_of_le_of_lt (Nat.le_add_right ..) hk) (OpcodeMap.code_of_lookup hl).symm,
    if_neg (Nat.not_le.2 hk)]

theorem Completes.checkFault_eq_none {m : Mnemonic} {o1 o2 : Byte} {s t : State} (h : Completes (m.build o1 o2) s t) :
    checkFault m s.pc.toNat o1 o2 s.sp = none := by
  cases m with
  | halt => simp [checkFault, Mnemonic.format]
  | ret =>
    cases h with
    | ret hs => simp [checkFault, Mnemonic.format, hs]
  | push =>
    cases h with
    | push hr hs =>
      have hne : s.sp ≠ 0#8 := hs
      simp [checkFault, Mnemonic.format, (legalReg_of_index hr).2, hne]
  | pop =>
    cases h with
    | pop hr hs => simp [checkFault, Mnemonic.format, (legalReg_of_index hr).2, hs]
  | call =>
    cases h with
    | call hr hp hs =>
      have hne : s.sp ≠ 0#8 := hs
      have hret : s.pc.toNat ≠ 254 := by omega
      simp [checkFault, Mnemonic.format, (legalReg_of_index hr).2, hne, hret]
  | print | jump | jumpIfNotEqual | jumpIfEqual | loadImmediate =>
    have hw : o1.toNat ≤ 7 := by simpa [Mnemonic.build, Instr.wellFormed, legalReg] using h.wellFormed
    simp [checkFault, Mnemonic.format, hw]
  | multiply | add | compare =>
    obtain ⟨h1, h2⟩ : o1.toNat ≤ 7 ∧ o2.toNat ≤ 7 := by simpa [Mnemonic.build, Instr.wellFormed, legalReg] using h.wellFormed
    simp [checkFault, Mnemonic.format, Nat.not_lt.2 h1, Nat.not_lt.2 h2]

/-- The first register index above 7 is the one the table finds; LOAD_IMMEDIATE's second byte is no index. -/
theorem checkFault_of_badIndex {m : Mnemonic} {o1 o2 r : Byte} (pc : Nat) (sp : Byte)
    (hw : (m.build o1 o2).wellFormed = false)
    (hf : (m.build o1 o2).operandBytes.find? (fun b => decide (7 < b.toNat)) = some r) :
    checkFault m pc o1 o2 sp = some (.outOfBoundsReg r) := by
  cases m with
  | halt | ret => cases hw
  | push | pop | print | call | jump | jumpIfNotEqual | jumpIfEqual | loadImmediate =>
    have h1 : 7 < o1.toNat := by simpa [Mnemonic.build, Instr.wellFormed, legalReg] using hw
    simp only [Mnemonic.build, Instr.operandBytes, List.find?_cons, h1, decide_true, Option.some.injEq] at hf
    subst hf
    simp [checkFault, Mnemonic.format, h1]
  | multiply | add | compare =>
    by_cases h1 : 7 < o1.toNat
    · simp only [Mnemonic.build, Instr.operandBytes, List.find?_cons, h1, decide_true, Option.some.injEq] at hf
      subst hf
      simp [checkFault, Mnemonic.format, h1]
    · have h2 : 7 < o2.toNat := by simpa [Mnemonic.build, Instr.wellFormed, legalReg, Nat.not_lt.1 h1] using hw
      simp only [Mnemonic.build, Instr.operandBytes, List.find?_cons, h1, h2, decide_true, decide_false, Option.some.injEq] at hf
      subst hf
      simp [checkFault, Mnemonic.format, h1, h2]

/-- A fault of an instruction that fits is the first whose test holds. -/
theorem Raises.checkFault_eq_some {m : Mnemonic} {o1 o2 : Byte} {s : State} {f : CoreFault}
    (h : Raises (m.build o1 o2) s f) (hk : s.pc.toNat + m.format.operands < memSize) :
    checkFault m s.pc.toNat o1 o2 s.sp = some f := by
  generalize hi : m.build o1 o2 = i at h
  cases h with
  | badIndex _ hw hf =>
    subst hi
    exact checkFault_of_badIndex _ _ hw hf
  | push hr hs =>
    cases m <;> cases hi
    simp [checkFault, Mnemonic.format, (legalReg_of_index hr).2, hs]
  | pop hr hs =>
    cases m <;> cases hi
    simp [checkFault, Mnemonic.format, (legalReg_of_index hr).2, hs]
  | callReturn hr hp =>
    cases m <;> cases hi
    have hfit : s.pc.toNat + 1 < 256 := hk
    have htop : s.pc.toNat = 254 := by omega
    simp [checkFault, Mnemonic.format, (legalReg_of_index hr).2, htop]
  | callPush hr hp hs =>
    cases m <;> cases hi
    have hret : s.pc.toNat ≠ 254 := by omega
    simp [checkFault, Mnemonic.format, (legalReg_of_index hr).2, hs, hret]
  | ret hs =>
    cases m <;> cases hi
    simp [checkFault, Mnemonic.format, hs]

theorem firstFault_of_faulting {c : OpcodeMap} (hc : c.Distinct) {s : State} {f : CoreFault} (h : Faulting c s f) :
    firstFault c s = some f := by
  cases h with
  | fetch hf => exact firstFault_of_fetch_error hc hf
  | exec hf he =>
    obtain ⟨m, hl, hk, rfl⟩ := State.fetch_ok_cases hf
    exact (firstFault_of_fetch_ok hc hl hk).trans (he.checkFault_eq_some hk)

theorem firstFault_of_completes {c : OpcodeMap} (hc : c.Distinct) {s t : State} {i : Instr} (hf : s.fetch c = .ok i)
    (h : Completes i s.beginStep t) : firstFault c s = none := by
  obtain ⟨m, hl, hk, rfl⟩ := State.fetch_ok_cases hf
  exact (firstFault_of_fetch_ok hc hl hk).trans h.checkFault_eq_none

/-- Settles O31: the table agrees with what the step did, whether it completed or raised. -/
theorem stepRaisesExactlyTheFirstFault : Obligations.StepRaisesExactlyTheFirstFault := by
  intro c s hc hr
  rcases stepWith_ready_cases c hr with ⟨i, t, hf, hcomp, e⟩ | ⟨f, hF, e⟩
  · rw [firstFault_of_completes hc hf hcomp]
    exact ⟨t, e, hcomp.st_ne_error hr.1⟩
  · rw [firstFault_of_faulting hc hF]
    exact e

end Sys2Proof.Machine

/-! PROOFS. The memory array as data (R23, log 9), and the boot through the load port (R154, R202). -/

namespace Sys2Proof.Machine

open Sys2Proof.Claims

/-! ### The canonical form -/

@[simp] theorem Memory.read_cons_same (a : Nat) (v : Byte) (m : Memory) : Memory.read ((a, v) :: m) a = v := if_pos rfl

theorem Memory.read_cons_other {a b : Nat} (v : Byte) (m : Memory) (h : b ≠ a) :
    Memory.read ((a, v) :: m) b = Memory.read m b := if_neg h

/-- A canonical list's first cell is its first that does not hold `emptyByte`. -/
theorem Memory.first_le_of_read_ne {lo a b : Nat} {v : Byte} {m : Memory} (h : Memory.wfFrom lo ((a, v) :: m) = true)
    (hb : Memory.read ((a, v) :: m) b ≠ emptyByte) : a ≤ b := by
  have hfrom : Memory.wfFrom a ((a, v) :: m) = true := Memory.wfFrom_cons.2 ⟨Nat.le_refl a, (Memory.wfFrom_cons.1 h).2⟩
  exact Nat.not_lt.1 fun hlt => hb (Memory.read_below hfrom hlt)

theorem Memory.ext_of_wfFrom {lo : Nat} {m n : Memory} (hm : Memory.wfFrom lo m = true) (hn : Memory.wfFrom lo n = true)
    (h : ∀ a : Nat, a < memSize → Memory.read m a = Memory.read n a) : m = n := by
  induction m generalizing lo n with
  | nil =>
    cases n with
    | nil => rfl
    | cons d n =>
      obtain ⟨b, w⟩ := d
      obtain ⟨_, hb, hw, _⟩ := Memory.wfFrom_cons.1 hn
      exact absurd ((h b hb).trans (Memory.read_cons_same b w n)).symm hw
  | cons c m ih =>
    obtain ⟨a, v⟩ := c
    obtain ⟨_, ha, hv, hm'⟩ := Memory.wfFrom_cons.1 hm
    have hna : Memory.read n a = v := (h a ha).symm.trans (Memory.read_cons_same a v m)
    cases n with
    | nil => exact absurd hna.symm hv
    | cons d n =>
      obtain ⟨b, w⟩ := d
      obtain ⟨_, hb, hw, hn'⟩ := Memory.wfFrom_cons.1 hn
      have hmb : Memory.read ((a, v) :: m) b = w := (h b hb).trans (Memory.read_cons_same b w n)
      obtain rfl : a = b := Nat.le_antisymm (Memory.first_le_of_read_ne hm (hmb ▸ hw)) (Memory.first_le_of_read_ne hn (hna ▸ hv))
      obtain rfl : v = w := hmb ▸ (Memory.read_cons_same a v m).symm
      rw [ih hm' hn' fun x hx => ?_]
      by_cases hxa : x = a
      · rw [hxa, Memory.read_below hm' (Nat.lt_succ_self a), Memory.read_below hn' (Nat.lt_succ_self a)]
      · rw [← Memory.read_cons_other v m hxa, h x hx, Memory.read_cons_other v n hxa]

/-- Settles O42: the first cells agree, then the rest. -/
theorem canonicalMemoriesThatReadAlikeAreEqual : Obligations.CanonicalMemoriesThatReadAlikeAreEqual :=
  fun _ _ hm hn h => Memory.ext_of_wfFrom hm hn h

/-! ### Bytes placed one after another -/

theorem State.wf_placeBytes {s : State} {k : Nat} {bs : List Byte} (h : Memory.wf s.mem = true)
    (hk : k + bs.length ≤ memSize) : Memory.wf (s.placeBytes k bs).mem = true := by
  induction bs generalizing s k with
  | nil => exact h
  | cons b bs ih =>
    rw [List.length_cons] at hk
    exact ih (Memory.wf_write b h (by omega)) (by omega)

theorem State.read_placeBytes_below {s : State} {k a : Nat} (bs : List Byte) (ha : a < k) :
    Memory.read (s.placeBytes k bs).mem a = Memory.read s.mem a := by
  induction bs generalizing s k with
  | nil => rfl
  | cons b bs ih => exact (ih (Nat.lt_succ_of_lt ha)).trans (Memory.read_write_other s.mem b (Nat.ne_of_lt ha))

/-- Byte `a` of the list, or what memory held past its end. -/
theorem State.read_placeBytes {s : State} {k : Nat} {bs : List Byte} (a : Nat) (h : Memory.wf s.mem = true)
    (hk : k + bs.length ≤ memSize) :
    Memory.read (s.placeBytes k bs).mem (k + a) = bs.getD a (Memory.read s.mem (k + a)) := by
  induction bs generalizing s k a with
  | nil => rfl
  | cons b bs ih =>
    rw [List.length_cons] at hk
    cases a with
    | zero => exact (State.read_placeBytes_below bs (Nat.lt_succ_self k)).trans (Memory.read_write_same k b h)
    | succ a =>
      have hwf : Memory.wf (s.setMem k b).mem = true := Memory.wf_write b h (by omega)
      have htail := ih a hwf (k := k + 1) (by omega)
      rw [Nat.add_right_comm] at htail
      rw [State.placeBytes, ← Nat.add_assoc, htail, State.setMem_mem, Memory.read_write_other s.mem b (by omega)]
      rfl

/-! ### The boot -/

theorem length_loaderInputsFrom (k : Nat) (bs : List Byte) : (loaderInputsFrom k bs).length = bs.length + 1 := by
  induction bs generalizing k with
  | nil => rfl
  | cons b bs ih => rw [loaderInputsFrom, List.length_cons, List.length_cons, ih]

/-- The loader's last sample starts the core. -/
theorem stepWith_of_start (c : OpcodeMap) {s : State} (hs : s.st = .idle) (hi : s.inputs = [{ start := true }]) :
    stepWith c s = .next { s with inputs := [], outPort := none, st := .running } := by
  have hsample : s.sampled = { start := true } := by rw [State.sampled, hi]; rfl
  rw [idleObeysTheLoadPortAndStart c s hs (by rw [hsample]), hsample, hi]
  rfl

/-- Its other samples write one byte each. -/
theorem stepWith_of_loadByte (c : OpcodeMap) {s : State} {k : Nat} {b : Byte} {later : List PortInput} (hs : s.st = .idle)
    (hk : k < 256) (hi : s.inputs = { ldWe := true, ldAddr := BitVec.ofNat 8 k, ldData := b } :: later) :
    stepWith c s = .next { s with inputs := later, outPort := none, mem := Memory.write s.mem k b } := by
  have hsample : s.sampled = { ldWe := true, ldAddr := BitVec.ofNat 8 k, ldData := b } := by rw [State.sampled, hi]; rfl
  have haddr : (BitVec.ofNat 8 k).toNat = k := Nat.mod_eq_of_lt hk
  rw [idleObeysTheLoadPortAndStart c s hs (by rw [hsample]), hsample, haddr, hi, ← hs]
  rfl

/-- The loader's samples place the bytes one a boundary, in the memory that any state `u` stands for, then start the core. -/
theorem runWith_loaderInputsFrom (c : OpcodeMap) {s u : State} {k : Nat} {bs : List Byte} (hs : s.st = .idle)
    (hi : s.inputs = loaderInputsFrom k bs) (hu : s.mem = u.mem) (hk : k + bs.length ≤ 256) : runWith c (bs.length + 1) s =
      .next { s with mem := (u.placeBytes k bs).mem, inputs := [], outPort := none, st := .running } := by
  induction bs generalizing s u k with
  | nil =>
    rw [State.placeBytes, ← hu]
    exact runWith_succ_of_next 0 (stepWith_of_start c hs hi)
  | cons b bs ih =>
    rw [List.length_cons] at hk
    have hmem : Memory.write s.mem k b = (u.setMem k b).mem := congrArg (Memory.write · k b) hu
    exact (runWith_succ_of_next _ (stepWith_of_loadByte c hs (by omega) hi)).trans (ih hs rfl hmem (by omega))

/-- Settles O38: the loader's run from reset, and the bytes it placed. -/
theorem bootLoadsTheImageAndStartsAtZero : Obligations.BootLoadsTheImageAndStartsAtZero := by
  intro c image
  refine ⟨fun hle => ?_, fun hgt => if_neg (Nat.not_le.2 hgt)⟩
  have hfit : 0 + image.length ≤ 256 := by rwa [Nat.zero_add]
  have hlen : (loaderInputsFrom 0 image).length = image.length + 1 := length_loaderInputsFrom 0 image
  refine ⟨loaderInputsFrom 0 image, { State.reset with mem := (State.reset.placeBytes 0 image).mem, st := .running },
    if_pos hle, ?_, hlen, rfl, State.wf_placeBytes rfl hfit, fun a _ => ?_⟩
  · rw [hlen]
    exact runWith_loaderInputsFrom c rfl rfl rfl hfit
  · have hread := State.read_placeBytes (s := State.reset) a rfl hfit
    rwa [Nat.zero_add] at hread

end Sys2Proof.Machine

/-! PROOFS. The stack's properties (42_stack.md), the fetch of a pushed byte (20_memory.md), and the return of a CALL
(44_control_transfer.md): what is stored below `x[7]` is what is loaded. -/

namespace Sys2Proof.Machine

open Sys2Proof.Claims

/-! ### A push, then a pop -/

/-- What a PUSH leaves, as the stack's properties need it. -/
structure Pushed (i : Fin 8) (s t : State) : Prop where
  sp_eq : t.reg 7 = s.reg 7 - 1
  cell_eq : Memory.read t.mem (t.reg 7).toNat = if i = 7 then s.reg 7 - 1 else s.reg i
  above_eq : ∀ a : Nat, (s.reg 7).toNat ≤ a → Memory.read t.mem a = Memory.read s.mem a
  mem_wf : Memory.wf t.mem = true
  reg_eq : ∀ j : Fin 8, j ≠ 7 → t.reg j = s.reg j
  out_eq : t.out = s.out

theorem exec_push_pushed (i : Fin 8) {s : State} (hwf : Memory.wf s.mem = true) (hs : s.reg 7 ≠ 0) :
    ∃ t : State, exec (.push (regByte i)) s = .next t ∧ Pushed i s t := by
  have hpos : 0 < (s.reg 7).toNat := by bv_omega
  have hin : (s.reg 7).toNat - 1 < memSize := Nat.lt_of_le_of_lt (Nat.sub_le ..) (s.reg 7).isLt
  have hsp : s.decSp.reg 7 = s.reg 7 - 1 := s.decSp_sp
  exact ⟨_, exec_push_regByte i hs,
    { sp_eq := hsp
      cell_eq := by
        rw [State.advance_reg, State.setMem_reg, hsp, toNat_sub_one hs]
        exact Memory.read_write_same _ _ hwf
      above_eq := fun _ ha => Memory.read_write_other s.mem _ (by omega)
      mem_wf := Memory.wf_write _ hwf hin
      reg_eq := fun _ hj => State.reg_setReg_other s _ hj
      out_eq := rfl }⟩

/-- After a POP into another register: it holds the byte at `x[7]`, and `x[7]` is one more. -/
theorem exec_pop_popped {j : Fin 8} {w : State} (hw : (w.reg 7).toNat < 0xF4) (hj : j ≠ 7) :
    ∃ u : State, exec (.pop (regByte j)) w = .next u ∧ u.reg j = Memory.read w.mem (w.reg 7).toNat ∧
      u.reg 7 = w.reg 7 + 1 ∧ u.mem = w.mem ∧ u.out = w.out :=
  ⟨_, exec_pop_other hw hj, by simp [State.reg_setReg_other _ _ hj], by simp, rfl, rfl⟩

/-- Below an `x[7]` of at most 0xF4 a pushed byte can be popped (R101). -/
theorem sub_one_lt_spReset {sp : Byte} (h0 : sp ≠ 0) (hle : sp.toNat ≤ 0xF4) : (sp - 1).toNat < 0xF4 := by
  have hpos : 0 < sp.toNat := by bv_omega
  rw [toNat_sub_one h0]
  omega

/-- Settles O45: the cell that PUSH wrote is the one the fetch unit reads. -/
theorem pushedByteIsFetchedNext : Obligations.PushedByteIsFetchedNext := by
  intro i s hwf hs
  obtain ⟨t, e, hpushed⟩ := exec_push_pushed i hwf hs
  refine ⟨t, e, ?_⟩
  have hpc : ((t.reg 7).zeroExtend 9).toNat = (t.reg 7).toNat := toNat_zeroExtend_byte _
  rw [← hpushed.cell_eq, ← hpc]
  exact State.fetchByte_some (s := { t with pc := (t.reg 7).zeroExtend 9 }) (k := 0) (by rw [Nat.add_zero, hpc]; exact (t.reg 7).isLt)

/-- Settles O48: what POP loads is the cell that PUSH stored, and the increment undoes the decrement. -/
theorem popGivesBackWhatPushStored : Obligations.PopGivesBackWhatPushStored := by
  intro s hwf hs hle
  have hlt : (s.reg 7 - 1).toNat < 0xF4 := sub_one_lt_spReset hs hle
  refine ⟨fun i j hi hj => ?_, ?_⟩
  · obtain ⟨t, e, hpushed⟩ := exec_push_pushed i hwf hs
    have hsp := hpushed.sp_eq
    refine ⟨t, e, fun w hwsp hwcell => ?_⟩
    obtain ⟨u, e', hload, hsp', _⟩ := exec_pop_popped (w := w) (by rwa [hwsp, hsp]) hj
    refine ⟨u, e', ?_, ?_⟩
    · rw [hload, hwsp, hwcell, hpushed.cell_eq, if_neg hi]
    · rw [hsp', hwsp, hsp, BitVec.sub_add_cancel]
  · obtain ⟨t, e, hpushed⟩ := exec_push_pushed 7 hwf hs
    refine ⟨t, _, e, exec_pop_seven (by rwa [hpushed.sp_eq]), ?_⟩
    rw [State.advance_reg, State.reg_setReg_same, hpushed.cell_eq, if_pos rfl, BitVec.sub_add_cancel]

/-! ### A call, then a return -/

/-- After a CALL: `x[7]` is one less and its cell holds the return address. -/
theorem exec_call_called (i : Fin 8) {s : State} (hwf : Memory.wf s.mem = true) (hp : s.pc.toNat ≤ 253) (hs : s.reg 7 ≠ 0) :
    ∃ t : State, exec (.call (regByte i)) s = .next t ∧ t.reg 7 = s.reg 7 - 1 ∧
      Memory.read t.mem (t.reg 7).toNat = BitVec.ofNat 8 (s.pc.toNat + 2) := by
  have hsp : s.decSp.reg 7 = s.reg 7 - 1 := s.decSp_sp
  refine ⟨_, exec_call_regByte i hp hs, hsp, ?_⟩
  rw [State.redirect_reg, State.setMem_reg, hsp, toNat_sub_one hs]
  exact Memory.read_write_same _ _ hwf

/-- A return address that fits a byte is the 9-bit sum (R120). -/
theorem zeroExtend_ofNat_add_two {pc : Word9} (hp : pc.toNat ≤ 253) :
    (BitVec.ofNat 8 (pc.toNat + 2)).zeroExtend 9 = pc + 2 := by
  apply BitVec.eq_of_toNat_eq
  have htwo : (2 : Word9).toNat = 2 := rfl
  rw [toNat_zeroExtend_byte, BitVec.toNat_ofNat, BitVec.toNat_add, htwo]
  omega

/-- Settles O50: RETURN loads the cell that CALL stored. -/
theorem returnResumesAfterTheCall : Obligations.ReturnResumesAfterTheCall := by
  intro i s hwf hp hs hle
  obtain ⟨t, e, hsp, hcell⟩ := exec_call_called i hwf hp hs
  refine ⟨t, e, fun w hwsp hwcell => ⟨_, exec_ret ?_, ?_, ?_⟩⟩
  · rw [hwsp, hsp]
    exact sub_one_lt_spReset hs hle
  · rw [State.incSp_pc, State.redirect_pc, hwsp, hwcell, hcell]
    exact zeroExtend_ofNat_add_two hp
  · have hinc : ((w.redirect (Memory.read w.mem (w.reg 7).toNat)).incSp).reg 7 = w.reg 7 + 1 := State.incSp_sp _
    rw [hinc, hwsp, hsp, BitVec.sub_add_cancel]

/-! ### Last in, first out -/

theorem execAll_cons {i : Instr} {s t : State} (is : List Instr) (h : exec i s = .next t) :
    execAll (i :: is) s = execAll is t := by
  rw [execAll, h]

theorem execAll_append {is : List Instr} {s t : State} (js : List Instr) (h : execAll is s = .next t) :
    execAll (is ++ js) s = execAll js t := by
  induction is generalizing s with
  | nil => cases h; rfl
  | cons i is ih =>
    obtain ⟨u, e⟩ := exec_total i s
    rw [execAll_cons _ e] at h
    rw [List.cons_append, execAll_cons _ e, ih h]

/-- POP and PRINT of one register as often as `rs` is long. -/
def popPrints (j : Fin 8) (rs : List (Fin 8)) : List Instr :=
  rs.flatMap fun _ => [.pop (regByte j), .print (regByte j)]

theorem popPrints_cons (j r : Fin 8) (rs : List (Fin 8)) :
    popPrints j (r :: rs) = popPrints j rs ++ [.pop (regByte j), .print (regByte j)] := by
  induction rs with
  | nil => rfl
  | cons q rs ih => simpa [popPrints] using ih

theorem execAll_pop_print {j : Fin 8} {w : State} (hw : (w.reg 7).toNat < 0xF4) (hj : j ≠ 7) :
    ∃ u : State, execAll [.pop (regByte j), .print (regByte j)] w = .next u ∧
      u.out = w.out ++ [Memory.read w.mem (w.reg 7).toNat] ∧ u.reg 7 = w.reg 7 + 1 ∧ u.mem = w.mem := by
  obtain ⟨u, e, hload, hsp, hmem, hout⟩ := exec_pop_popped hw hj
  refine ⟨(u.output (u.reg j)).advance 1, ?_, ?_, hsp, hmem⟩
  · rw [execAll_cons _ e, execAll_cons _ (exec_print_regByte j u)]
    rfl
  · rw [State.advance_out, State.output_out, hout, hload]

/-- A PUSH first, what the rest pushes and pops in between, and the PUSH's own POP and PRINT last; the cells from `x[7]` up stay. -/
theorem execAll_pushes_popPrints (rs : List (Fin 8)) {j : Fin 8} {s : State} (hwf : Memory.wf s.mem = true)
    (hlen : rs.length ≤ (s.reg 7).toNat) (hle : (s.reg 7).toNat ≤ 0xF4) (h7 : 7 ∉ rs) (hj : j ≠ 7) :
    ∃ t : State, execAll (rs.map (fun r => .push (regByte r)) ++ popPrints j rs) s = .next t ∧
      t.out = s.out ++ (rs.map s.reg).reverse ∧ t.reg 7 = s.reg 7 ∧
      ∀ a : Nat, (s.reg 7).toNat ≤ a → Memory.read t.mem a = Memory.read s.mem a := by
  induction rs generalizing s with
  | nil => exact ⟨s, rfl, (List.append_nil _).symm, rfl, fun _ _ => rfl⟩
  | cons r rs ih =>
    rw [List.length_cons] at hlen
    obtain ⟨hr, hrs⟩ := not_or.1 (List.mem_cons.not.1 h7)
    have hs : s.reg 7 ≠ 0 := by bv_omega
    obtain ⟨t, et, ht⟩ := exec_push_pushed r hwf hs
    have hsp : (t.reg 7).toNat = (s.reg 7).toNat - 1 := by rw [ht.sp_eq, toNat_sub_one hs]
    obtain ⟨v, ev, hvout, hvsp, hvabove⟩ := ih ht.mem_wf (by omega) (by omega) hrs
    obtain ⟨u, eu, huout, husp, humem⟩ := execAll_pop_print (w := v) (by rw [hvsp]; omega) hj
    have hbyte : Memory.read v.mem (v.reg 7).toNat = s.reg r := by
      rw [hvsp, hvabove _ (Nat.le_refl _), ht.cell_eq, if_neg (Ne.symm hr)]
    have hmap : rs.map t.reg = rs.map s.reg := List.map_congr_left fun q hq => ht.reg_eq q fun e => hrs (e ▸ hq)
    refine ⟨u, ?_, ?_, ?_, fun a ha => ?_⟩
    · rw [List.map_cons, List.cons_append, execAll_cons _ et, popPrints_cons, ← List.append_assoc, execAll_append _ ev, eu]
    · rw [huout, hvout, ht.out_eq, hbyte, hmap, List.map_cons, List.reverse_cons, List.append_assoc]
    · rw [husp, hvsp, ht.sp_eq, BitVec.sub_add_cancel]
    · rw [humem, hvabove a (by omega), ht.above_eq a ha]

/-- Settles O49, which asks for the stream and `x[7]` alone. -/
theorem popsReversePushes : Obligations.PopsReversePushes := by
  intro rs j s hwf hlen hle h7 hj
  obtain ⟨t, e, hout, hsp, _⟩ := execAll_pushes_popPrints rs hwf hlen hle h7 hj
  exact ⟨t, e, hout, hsp⟩

end Sys2Proof.Machine
